-- ==== Sys2Proof/Word.lean ====
section
/-! DEFINITION. The value types of the block: a byte, a 32-bit header word, a pixel and a header record (spec R9, R28). -/

namespace Sys2Proof

/-- `u8` of R9: one byte; bit 7 is the most significant bit (R8). -/
abbrev Byte := BitVec 8

/-- `u32` of R9: a width or a height of the header record. -/
abbrev Word32 := BitVec 32

/-- `Pixel` of R9: four `u8` channels; two pixels are equal exactly when all four channels are. -/
structure Pixel where
  r : Byte
  g : Byte
  b : Byte
  a : Byte
  deriving DecidableEq, Repr, Inhabited

/-- `Header` of R9 and R28. No field is ever checked (R93). -/
structure Header where
  width : Word32
  height : Word32
  channels : Byte
  colorspace : Byte
  deriving DecidableEq, Repr, Inhabited

end Sys2Proof
end

