-- ==== Sys2Proof/Machine/Adapters.lean ====
section
/-! DEFINITION. The RGBA byte deserializer and serializer (spec R240 to R245). -/

namespace Sys2Proof.Machine

/-- `BytesToPix(B)` of R240: four bytes a pixel, in the order r, g, b, a; a partial last group is dropped (R241). -/
def bytesToPix : List Byte → List Pixel
  | r :: g :: b :: a :: rest => ⟨r, g, b, a⟩ :: bytesToPix rest
  | _ => []

/-- `PixToBytes(S)` of R242: r, g, b, a of each pixel. -/
def pixToBytes : List Pixel → List Byte
  | [] => []
  | p :: ps => p.r :: p.g :: p.b :: p.a :: pixToBytes ps

end Sys2Proof.Machine
end

