-- ==== Sys2Proof/Machine/Memory.lean ====
section
/-! DEFINITION. The byte spaces `IBUF` and `OBUF` (spec R60, R67): lists of cells in one canonical form, and the operations
over them. -/

namespace Sys2Proof.Machine

/-- A byte space: cells at addresses 0, 1, 2, … in that order (`Memory.wf`). An address with no cell is outside the
buffer and has no value: R60 gives a buffer exactly the addresses below its length. -/
abbrev Memory := List Host.Cell

/-- Consecutive cells from `base` on. -/
def Memory.cellsFrom (base : Nat) : List Byte → Memory
  | [] => []
  | b :: bs => (base, b) :: Memory.cellsFrom (base + 1) bs

/-- The buffer that holds a byte sequence from address 0 on. -/
def Memory.ofBytes (bs : List Byte) : Memory := Memory.cellsFrom 0 bs

/-- The byte sequence a buffer holds. -/
def Memory.bytes (m : Memory) : List Byte := m.map Prod.snd

/-- `IBUF_LEN` of R60, `olen` of R38: the length of a buffer. -/
def Memory.size (m : Memory) : Nat := m.length

/-- The canonical form: a buffer holds exactly the addresses 0 to its length less 1, in rising order. -/
def Memory.wf (m : Memory) : Bool := decide (m = Memory.ofBytes (Memory.bytes m))

/-- One byte; no value outside the buffer (R65). -/
def Memory.read : Memory → Nat → Option Byte
  | [], _ => none
  | (k, b) :: rest, a => if k = a then some b else Memory.read rest a

/-- `MemRead(addr, n)` of R11: `n` bytes from `addr` on; no value when one of them is outside the buffer. -/
def Memory.readRange (m : Memory) (addr : Nat) : Nat → Option (List Byte)
  | 0 => some []
  | n + 1 =>
    match Memory.read m addr, Memory.readRange m (addr + 1) n with
    | some b, some bs => some (b :: bs)
    | _, _ => none

/-- `MemWrite(olen, n, v)` of R11 and R68: bytes appended at the end. -/
def Memory.append (m : Memory) (bs : List Byte) : Memory := m ++ Memory.cellsFrom (Memory.size m) bs

/-- The buffer with `bs` placed at `addr` from outside (never an operation of the block): the bytes below `addr` and those
above the placed ones stay, and a gap below `addr` is filled with zero bytes. -/
def Memory.place (m : Memory) (addr : Nat) (bs : List Byte) : Memory :=
  Memory.ofBytes
    ((Memory.bytes m).take addr ++ List.replicate (addr - Memory.size m) 0 ++ bs ++ (Memory.bytes m).drop (addr + bs.length))

end Sys2Proof.Machine
end

