-- ==== Sys2Proof/Config.lean ====
section
/-! DEFINITION. The parameters of the block (spec R7) and its one free value (log entry 3). -/

namespace Sys2Proof

/-- `CACHE_SLOTS` of R7. -/
abbrev Config.cacheSlots : Nat := 64

/-- `HASH_MUL` of R7 for the red channel. -/
def Config.hashMulR : Byte := 3
/-- `HASH_MUL` of R7 for the green channel. -/
def Config.hashMulG : Byte := 5
/-- `HASH_MUL` of R7 for the blue channel. -/
def Config.hashMulB : Byte := 7
/-- `HASH_MUL` of R7 for the alpha channel. -/
def Config.hashMulA : Byte := 11

/-- `RUN_MAX` of R7: the longest run one Run chunk carries. -/
def Config.runMax : Byte := 62

/-- `LAST_INIT` of R7: the start value of `dlast` and of `elast`. -/
def Config.lastInit : Pixel := ⟨0, 0, 0, 255⟩

/-- `DEC_CACHE_INIT` of R7: the start fill of every `dcache` slot (R21, R293). -/
def Config.decCacheInit : Pixel := ⟨0, 0, 0, 255⟩

/-- `ENC_CACHE_INIT` of R7: the start fill of every `ecache` slot (R31, R293); it differs from the decoder's on purpose. -/
def Config.encCacheInit : Pixel := ⟨0, 0, 0, 0⟩

/-- `MAGIC` of R7: the characters `q`, `o`, `i`, `f` (R91). PRESUMED (log entry 8): their ASCII codes. -/
def Config.magic : List Byte := [0x71, 0x6F, 0x69, 0x66]

/-- `HDR_BYTES` of R7: the bytes of the header record after the magic (R92, conflict C1). -/
def Config.hdrBytes : Nat := 10

/-- The file offset of the first chunk (R76, R294). -/
def Config.firstChunk : Nat := 14

/-- `END_MARK` of R7: the end marker (R99). -/
def Config.endMark : List Byte := [0, 0, 0, 0, 0, 0, 0, 1]

/-- The seven bytes that follow a 0x00 tag exactly when it begins the end marker (R99, R144). -/
def Config.endTail : List Byte := [0, 0, 0, 0, 0, 0, 1]

/-- `PEEK_FAIL_IS_FAULT` of R7: the spec's decision D9 sets it to false, so a 0x00 tag with fewer than seven bytes
after it is `Index{0}` (R144). The parser takes the setting as an argument (U2, log entry 5). -/
def Config.peekFailIsFault : Bool := false

/-- The free value of the model (log entry 3): what `dhdr` holds after a DEC_START that raised. R25 calls it unspecified
until DEC_START succeeds and R291 says that no register keeps a value from an earlier session. Nothing constrains it. -/
opaque Config.unspecifiedHeader : Nat → Header

end Sys2Proof
end

