-- ==== Sys2Proof/Machine/Operands.lean ====
section
/-! DEFINITION. The arithmetic and bit-field primitives every operand is formed with (spec R8, R10, R69, R95). -/

namespace Sys2Proof.Machine

/-- `wrap8(n)` of R10: `n mod 256` for any integer, negative ones included. -/
def wrap8 (n : Int) : Byte := BitVec.ofInt 8 n

/-- `add8(x, d)` of R10: a channel plus any integer, with 8-bit wraparound. -/
def add8 (x : Byte) (d : Int) : Byte := wrap8 (x.toNat + d)

/-- `sub8(x, y)` of R10: channel difference with 8-bit wraparound. -/
def sub8 (x y : Byte) : Byte := wrap8 ((x.toNat : Int) - y.toNat)

/-- `s8(v)` of R10: a byte read as a signed number. -/
def s8 (v : Byte) : Int := if v.toNat ≤ 127 then v.toNat else (v.toNat : Int) - 256

/-- `subs8(x, y)` of R10: wraparound signed subtraction. -/
def subs8 (x y : Int) : Int := s8 (wrap8 (x - y))

/-- `v[hi:lo]` of R8, read as an unsigned number. -/
def bitField (v : Byte) (hi lo : Nat) : Nat := v.toNat / 2 ^ lo % 2 ^ (hi - lo + 1)

/-- R95: a stored field with the offset of its bias taken off. -/
def unbias (field offset : Nat) : Int := (field : Int) - offset

/-- `be32` of R69: four bytes, the most significant first. -/
def be32 (b0 b1 b2 b3 : Byte) : Word32 :=
  BitVec.ofNat 32 (b0.toNat * 2 ^ 24 + b1.toNat * 2 ^ 16 + b2.toNat * 2 ^ 8 + b3.toNat)

/-- `to_be32` of R69: the inverse of `be32`. -/
def toBe32 (w : Word32) : List Byte :=
  [BitVec.ofNat 8 (w.toNat / 2 ^ 24), BitVec.ofNat 8 (w.toNat / 2 ^ 16), BitVec.ofNat 8 (w.toNat / 2 ^ 8),
    BitVec.ofNat 8 w.toNat]

end Sys2Proof.Machine
end

