-- ==== Sys2Proof/Syntax.lean ====
section
/-! DEFINITION. The instruction set: the six chunk variants and the end marker (spec R2, R94, R109), one constructor per
row of spec/opcode_table.json, in the table's order. -/

namespace Sys2Proof

/-- An `Item` of R9. A `u8` field is a byte. An `i8` field is an exact integer, since the spec only adds such a field to
other integers before it wraps the sum (R10, R176, R177). The ranges are those of `Instr.wellFormed`. -/
inductive Instr where
  /-- RGB (R96): a new colour; alpha is implied. -/
  | rgb (r g b : Byte)
  /-- RGBA (R97): a whole new pixel. -/
  | rgba (r g b a : Byte)
  /-- END (R99): the end marker; no chunk, and it yields no pixel. -/
  | endMarker
  /-- INDEX (R98): the pixel of one cache slot. -/
  | index (idx : Byte)
  /-- DIFF (R100): small channel deltas. -/
  | diff (dr dg db : Int)
  /-- LUMA (R101): a green delta, and the red and blue deltas relative to it. -/
  | luma (dg drDg dbDg : Int)
  /-- RUN (R102): repeats of the previous pixel. -/
  | run (length : Byte)
  deriving DecidableEq, Repr

end Sys2Proof
end

