-- ==== Sys2Proof/WellFormed.lean ====
section
/-! DEFINITION. Which items have an encoding: every field inside the range of spec R94 (R109, R150). -/

namespace Sys2Proof

/-- `lo ≤ v ≤ hi`, the range check of one signed field. -/
def inRange (lo hi v : Int) : Bool := decide (lo ≤ v) && decide (v ≤ hi)

/-- R94, R109: a written item is well-formed when every field is inside its range. -/
def Instr.wellFormed : Instr → Bool
  | .rgb _ _ _ => true
  | .rgba _ _ _ _ => true
  | .endMarker => true
  | .index idx => decide (idx.toNat ≤ 63)
  | .diff dr dg db => inRange (-2) 1 dr && inRange (-2) 1 dg && inRange (-2) 1 db
  | .luma dg drDg dbDg => inRange (-32) 31 dg && inRange (-8) 7 drDg && inRange (-8) 7 dbDg
  | .run length => decide (1 ≤ length.toNat) && decide (length.toNat ≤ 62)

/-- R94, R99: the bytes of an item's encoding, by its variant. -/
def Instr.totalBytes : Instr → Nat
  | .rgb _ _ _ => 4
  | .rgba _ _ _ _ => 5
  | .endMarker => 8
  | .index _ => 1
  | .diff _ _ _ => 1
  | .luma _ _ _ => 2
  | .run _ => 1

end Sys2Proof
end

