-- ==== Sys2Proof/Decode.lean ====
section
/-! DEFINITION. The byte cursor (spec R61 to R66), the chunk tag decoder `ParseChunk` (R140 to R149), the chunk tag encoder
`SerChunk` (R150 to R157) and the header record (R92). -/

namespace Sys2Proof

open Sys2Proof.Machine

/-- The four typed failures of R250. -/
inductive Failure where
  | invalidMagic
  | truncated
  | endOfInput
  | lengthMismatch
  deriving DecidableEq, Repr

/-- The codes of R250 (the spec's decision D17; nothing depends on them). -/
def Failure.code : Failure → Nat
  | .invalidMagic => 1
  | .truncated => 2
  | .endOfInput => 3
  | .lengthMismatch => 4

/-- The byte cursor of R61. -/
structure Cursor where
  ibuf : Memory
  pos : Nat
  deriving DecidableEq, Repr

/-- `Remaining()` of R61. A position past the end of the buffer is no cursor of R61; there the subtraction of natural numbers
makes this 0, so the parser answers EndOfInput. DESIGN CHOICE (log entry 16). -/
def Cursor.remaining (c : Cursor) : Nat := Memory.size c.ibuf - c.pos

/-- What a cursor primitive answers. -/
inductive Access where
  /-- the bytes asked for, and the cursor afterwards -/
  | got (bs : List Byte) (next : Cursor)
  /-- the primitive signals `Truncated`, and the cursor has not moved (R66) -/
  | short
  /-- a read outside the buffer: R65 says it never happens, and the model shows it by keeping this outcome apart -/
  | outside (addr : Nat)
  deriving DecidableEq, Repr

/-- `PeekFixed(n)` of R62: the next `n` bytes, without advancing. -/
def peekFixed (c : Cursor) (n : Nat) : Access :=
  if c.remaining < n then .short
  else
    match Memory.readRange c.ibuf c.pos n with
    | some bs => .got bs c
    | none => .outside c.pos

/-- `ReadFixed(n)` of R64: the next `n` bytes, advancing over them. -/
def readFixed (c : Cursor) (n : Nat) : Access :=
  if c.remaining < n then .short
  else
    match Memory.readRange c.ibuf c.pos n with
    | some bs => .got bs { c with pos := c.pos + n }
    | none => .outside c.pos

/-- `ReadU8()` of R63: one byte, advancing over it. -/
def readU8 (c : Cursor) : Access := readFixed c 1

/-- What the chunk parser answers; `pos` is the cursor's position afterwards. -/
inductive Parsed where
  | item (i : Instr) (pos : Nat)
  | failed (f : Failure) (pos : Nat)
  /-- a read outside the buffer (see `Access.outside`) -/
  | outside (addr : Nat)
  deriving DecidableEq, Repr

/-- R142: three payload bytes; Truncated leaves the cursor just after the tag. -/
def parseRgb (c : Cursor) : Parsed :=
  match readFixed c 3 with
  | .got [r, g, b] c' => .item (.rgb r g b) c'.pos
  | .got _ c' => .outside c'.pos
  | .short => .failed .truncated c.pos
  | .outside a => .outside a

/-- R143: four payload bytes; Truncated leaves the cursor just after the tag. -/
def parseRgba (c : Cursor) : Parsed :=
  match readFixed c 4 with
  | .got [r, g, b, a] c' => .item (.rgba r g b a) c'.pos
  | .got _ c' => .outside c'.pos
  | .short => .failed .truncated c.pos
  | .outside a => .outside a

/-- R146: the three biased two-bit fields of a Diff tag. -/
def diffOfTag (tag : Byte) : Instr :=
  .diff (unbias (bitField tag 5 4) 2) (unbias (bitField tag 3 2) 2) (unbias (bitField tag 1 0) 2)

/-- R147: the biased fields of a Luma tag and its second byte. -/
def lumaOfBytes (tag byte2 : Byte) : Instr :=
  .luma (unbias (bitField tag 5 0) 32) (unbias (bitField byte2 7 4) 8) (unbias (bitField byte2 3 0) 8)

/-- R147: one more byte; its absence is Truncated, with the cursor just after the tag (conflict C4). -/
def parseLuma (tag : Byte) (c : Cursor) : Parsed :=
  match readU8 c with
  | .got [byte2] c' => .item (lumaOfBytes tag byte2) c'.pos
  | .got _ c' => .outside c'.pos
  | .short => .failed .truncated c.pos
  | .outside a => .outside a

/-- R148: `length = tag[5:0] + 1`. -/
def runOfTag (tag : Byte) : Instr := .run (BitVec.ofNat 8 (bitField tag 5 0 + 1))

/-- R140 step 5: the variant by the two top bits of the tag. -/
def parseByTopBits (tag : Byte) (c : Cursor) : Parsed :=
  match bitField tag 7 6 with
  | 0 => .item (.index tag) c.pos
  | 1 => .item (diffOfTag tag) c.pos
  | 2 => parseLuma tag c
  | _ => .item (runOfTag tag) c.pos

/-- R144: the end-marker test after a 0x00 tag. A peek that cannot be made counts as no match (decision D9), unless the
parameter `peekFailIsFault` of R7 is set (U2). -/
def parseZeroTag (peekFailIsFault : Bool) (tag : Byte) (c : Cursor) : Parsed :=
  match peekFixed c 7 with
  | .got bs _ => if bs = Config.endTail then .item .endMarker c.pos else parseByTopBits tag c
  | .short => if peekFailIsFault then .failed .truncated c.pos else parseByTopBits tag c
  | .outside a => .outside a

/-- R140 steps 2 to 5: the tests on a tag that has been read, in the order that R104 calls load-bearing. -/
def parseAfterTag (peekFailIsFault : Bool) (tag : Byte) (c : Cursor) : Parsed :=
  if tag = 0xFE then parseRgb c
  else if tag = 0xFF then parseRgba c
  else if tag = 0x00 then parseZeroTag peekFailIsFault tag c
  else parseByTopBits tag c

/-- R140, R141: one item at the cursor; a missing tag byte is EndOfInput (conflict C7). -/
def parseChunkWith (peekFailIsFault : Bool) (c : Cursor) : Parsed :=
  if c.remaining = 0 then .failed .endOfInput c.pos
  else
    match readU8 c with
    | .got [tag] c' => parseAfterTag peekFailIsFault tag c'
    | .got _ c' => .outside c'.pos
    | .short => .failed .truncated c.pos
    | .outside a => .outside a

/-- `ParseChunk()` of R140, with the setting the spec decides. -/
def parseChunk (c : Cursor) : Parsed := parseChunkWith Config.peekFailIsFault c

/-- The decoder on any byte sequence: the item at its beginning, or the failure by name. -/
def decode (bs : List Byte) : Parsed := parseChunk ⟨Memory.ofBytes bs, 0⟩

/-- The bytes of a well-formed item (R151 to R157). -/
def encode : Instr → List Byte
  | .rgb r g b => [0xFE, r, g, b]
  | .rgba r g b a => [0xFF, r, g, b, a]
  | .endMarker => Config.endMark
  | .index idx => [idx]
  | .diff dr dg db => [wrap8 (0x40 + (dr + 2) * 16 + (dg + 2) * 4 + (db + 2))]
  | .luma dg drDg dbDg => [wrap8 (0x80 + (dg + 32)), wrap8 ((drDg + 8) * 16 + (dbDg + 8))]
  | .run length => [0xC0 + (length - 1)]

/-- `SerChunk(c)` of R150: defined on well-formed items only. -/
def serChunk (i : Instr) : Option (List Byte) := if i.wellFormed then some (encode i) else none

/-- `SerHeader` of R92. -/
def serHeader (h : Header) : List Byte := toBe32 h.width ++ toBe32 h.height ++ [h.channels, h.colorspace]

/-- `ParseHeader` of R92, on the ten bytes of a header record. -/
def parseHeader : List Byte → Option Header
  | [w0, w1, w2, w3, h0, h1, h2, h3, ch, cs] => some ⟨be32 w0 w1 w2 w3, be32 h0 h1 h2 h3, ch, cs⟩
  | _ => none

/-- The bytes of an instruction whose bits are numbered as spec/opcode_table.json numbers them: bit 0 is the least
significant bit of the first byte. Bits from `nbits` on are 0, up to the eight bytes of the longest item. -/
def tableBytes (nbits w : Nat) : List Byte :=
  (List.range 8).map fun k => BitVec.ofNat 8 (w % 2 ^ nbits / 2 ^ (8 * k))

/-- The instruction the decoder reads from the table's bits. -/
def decodeTableWord (nbits w : Nat) : Option Instr :=
  match decode (tableBytes nbits w) with
  | .item i _ => some i
  | .failed _ _ => none
  | .outside _ => none

end Sys2Proof
end

