-- ==== Sys2Proof/Machine/State.lean ====
section
/-! DEFINITION. The state of the two units and of the boundary to HOST (spec 10_state.md), the outcomes of a step, and the
state after power-on (R290, R45). -/

namespace Sys2Proof.Machine

/-- A unit's pixel cache (R21, R31, R132): 64 slots of one pixel, without valid bits. -/
abbrev PixelCache := Vector Pixel Config.cacheSlots

/-- `dstatus` and `estatus` (R26, R37). Which faults each unit can hold is part of `Inv`. -/
inductive Status where
  | idle
  | active
  | done
  | fault (f : Failure)
  deriving DecidableEq, Repr

/-- The two units (R6). HOST owns no state of the block. -/
inductive Agent where
  | dec
  | enc
  deriving DecidableEq, Repr

/-- The registers of DEC (R20). -/
structure DecUnit where
  /-- R21 -/
  dcache : PixelCache
  /-- R22 -/
  dlast : Pixel
  /-- R23, 8 bits -/
  drun : Byte
  /-- R24, the decoder's program counter -/
  pos : Nat
  /-- R25 -/
  dhdr : Header
  /-- R26 -/
  dstatus : Status
  deriving DecidableEq, Repr

/-- The registers of ENC (R30). `olen` is `EncUnit.olen`, the size of `obuf`. -/
structure EncUnit where
  /-- R31 -/
  ecache : PixelCache
  /-- R32 -/
  elast : Pixel
  /-- R33, 8 bits -/
  erun : Byte
  /-- R34, the encoder's program counter -/
  eidx : Nat
  /-- R35 -/
  etotal : Nat
  /-- R36 -/
  ehdr : Header
  /-- R37 -/
  estatus : Status
  /-- R38, R67 -/
  obuf : Memory
  deriving DecidableEq, Repr

/-- `olen` of R38. -/
def EncUnit.olen (e : EncUnit) : Nat := Memory.size e.obuf

/-- A request of HOST: the five operations and the five pure functions of R50. DESIGN CHOICE (log entries 1 and 7). -/
inductive HostOp where
  | decStart (input : List Byte)
  | decNext
  | encStart (h : Header)
  | encPixel (p : Pixel)
  | encEnd
  | hash (p : Pixel)
  | parseChunk (input : List Byte) (pos : Nat)
  | serChunk (i : Instr)
  | bytesToPix (bs : List Byte)
  | pixToBytes (ps : List Pixel)
  deriving DecidableEq, Repr

/-- What one operation hands back to HOST (`output v` of R11, the outputs column of R50). -/
inductive Answer where
  /-- DEC_START succeeded -/
  | header (h : Header)
  /-- DEC_NEXT yielded a pixel -/
  | pixel (p : Pixel)
  /-- DEC_NEXT answered `Done` -/
  | done
  /-- the typed failure of R256 -/
  | failed (f : Failure)
  /-- an ENC operation finished; it has no output of its own -/
  | complete
  /-- `hash` -/
  | slot (n : Nat)
  /-- `ParseChunk`: the item and the cursor's position after it -/
  | item (i : Instr) (pos : Nat)
  /-- `SerChunk`, `PixToBytes` -/
  | bytes (bs : List Byte)
  /-- `BytesToPix` -/
  | pixels (ps : List Pixel)
  deriving DecidableEq, Repr

/-- How a step can stop the machine. The four typed failures are no stops: taking one is a next state (R256). -/
inductive Fault where
  /-- A byte outside `IBUF` would be read at `addr`. Raised by a cursor primitive of DEC_START or DEC_NEXT when the buffer
  lacks an address below its length. Safe: R65 says it never happens, and it cannot in a state whose buffer is in
  canonical form. -/
  | outsideBuffer (addr : Nat)
  deriving DecidableEq, Repr

/-- The requests to which R262 gives no step, and the host's name for an instruction without a meaning. -/
inductive Refusal where
  /-- no meaning yet; raised by no arm of this model. Safe. -/
  | notModelled (mnemonic : String)
  /-- DEC_NEXT in `IDLE` (R182, R262). Raised by DEC_NEXT. Safe. -/
  | decNextInIdle
  /-- ENC_PIXEL in `IDLE` or `DONE` (R218, R262). Raised by ENC_PIXEL. Safe. -/
  | encPixelWithoutSession
  /-- ENC_END in `IDLE` or `DONE` (R218, R262). Raised by ENC_END. Safe. -/
  | encEndWithoutSession
  /-- an item with a field out of range has no encoding (R150, R262). Raised by `SerChunk`; by the meanings of INDEX, DIFF,
  LUMA and RUN on such a term, which no bytes encode; and by ENC_PIXEL only in a state that no run reaches, whose run
  counter is above 61. Safe. -/
  | illFormedChunk (i : Instr)
  deriving DecidableEq, Repr

/-- The whole machine: both units, the input buffer of the decode session, and the boundary to HOST. -/
structure State where
  /-- the decoder unit (R20) -/
  dec : DecUnit
  /-- the encoder unit (R30) -/
  enc : EncUnit
  /-- `IBUF` of R60: the session's input, which no operation of the block but DEC_START sets -/
  ibuf : Memory
  /-- the operations HOST has asked for and the block has not begun, the next one first (log entry 1) -/
  pending : List HostOp
  /-- what the operations have handed back to HOST, the oldest first (log entry 1) -/
  answers : List Answer
  /-- the model's own counter of free values taken (log entry 3) -/
  freeCount : Nat
  deriving DecidableEq, Repr

/-- The outcome of an operation. -/
abbrev Result := Host.Outcome State Fault Refusal

/-- DEC after power-on: `IDLE` (R290). DESIGN CHOICE (log entry 2): the other registers hold their session start values. -/
def DecUnit.reset : DecUnit :=
  { dcache := Vector.replicate Config.cacheSlots Config.decCacheInit
    dlast := Config.lastInit
    drun := 0
    pos := 0
    dhdr := ⟨0, 0, 0, 0⟩
    dstatus := .idle }

/-- ENC after power-on: `IDLE` (R290). DESIGN CHOICE (log entry 2): the other registers hold their session start values. -/
def EncUnit.reset : EncUnit :=
  { ecache := Vector.replicate Config.cacheSlots Config.encCacheInit
    elast := Config.lastInit
    erun := 0
    eidx := 0
    etotal := 0
    ehdr := ⟨0, 0, 0, 0⟩
    estatus := .idle
    obuf := [] }

/-- The machine after power-on (R290, R45): both units `IDLE`, no input handed over, nothing asked and nothing answered. -/
def State.reset : State :=
  { dec := DecUnit.reset
    enc := EncUnit.reset
    ibuf := []
    pending := []
    answers := []
    freeCount := 0 }

end Sys2Proof.Machine
end

