-- ==== Sys2Proof/Machine/PixelCache.lean ====
section
/-! DEFINITION. The pixel-index cache: its hash and its three accesses (spec R130 to R135). -/

namespace Sys2Proof.Machine

/-- The 8-bit sum of R130, wrapped at every multiplication and addition. -/
def hashSum (p : Pixel) : Byte :=
  p.r * Config.hashMulR + p.g * Config.hashMulG + p.b * Config.hashMulB + p.a * Config.hashMulA

/-- `hash(p)` of R130: the slot of a pixel. -/
def pixelHash (p : Pixel) : Fin Config.cacheSlots :=
  ⟨(hashSum p).toNat % Config.cacheSlots, Nat.mod_lt _ (by decide)⟩

/-- `CacheProbe(c, p)` of R133: the slot, and whether it holds exactly `p`. -/
def cacheProbe (cache : PixelCache) (p : Pixel) : Fin Config.cacheSlots × Bool :=
  (pixelHash p, decide (cache[(pixelHash p).val] = p))

/-- `CacheStore(c, p)` of R134: `c[hash(p)] <- p`. -/
def cacheStore (cache : PixelCache) (p : Pixel) : PixelCache := cache.set (pixelHash p).val p

/-- `CacheFetch(c, idx)` of R135; no value for an `idx` that no chunk can hold. -/
def cacheFetch (cache : PixelCache) (idx : Byte) : Option Pixel := cache[idx.toNat]?

/-- Every slot at one start fill (R291, R292). -/
def cacheFill (p : Pixel) : PixelCache := Vector.replicate Config.cacheSlots p

end Sys2Proof.Machine
end

