-- ==== Sys2Proof/Machine/Flags.lean ====
section
/-! DEFINITION. The block has no flags (spec R41): the tests that steer the encoder are computed anew in each ENC_PIXEL and
are not kept. They are these. -/

namespace Sys2Proof.Machine

/-- `p = elast`, all four channels (R204). -/
def isRepeat (e : EncUnit) (p : Pixel) : Bool := decide (p = e.elast)

/-- `eidx = etotal`: after step 1, the pixel being encoded is the final one (R203); before it, the image is complete (R201). -/
def atTotal (e : EncUnit) : Bool := decide (e.eidx = e.etotal)

/-- R204: the run must be emitted now, since it is full or the pixel is the final one. -/
def runIsDue (e : EncUnit) : Bool := decide (e.erun = Config.runMax) || atTotal e

/-- R205: a run is pending. -/
def runIsPending (e : EncUnit) : Bool := decide (0 < e.erun.toNat)

/-- `p.a = elast.a` (R208). -/
def sameAlpha (e : EncUnit) (p : Pixel) : Bool := decide (p.a = e.elast.a)

end Sys2Proof.Machine
end

