-- ==== Sys2Proof/Machine/Ops.lean ====
section
/-! DEFINITION. The operations the meanings share: handing an answer to HOST, taking a fault (spec R256), the session starts
that alone leave one (R259, R291, R292), emitting bytes (R68) and chunks (R215), and the decoder's common update (R179). -/

namespace Sys2Proof.Machine

/-- `output v` of R11: the operation hands `v` back to HOST. -/
def answer (v : Answer) (s : State) : State := { s with answers := s.answers ++ [v] }

/-- One operation after another, stopping where the first stops. -/
def andThen (o : Result) (k : State → Result) : Result :=
  match o with
  | .next s => k s
  | .fault f => .fault f
  | .refused r => .refused r

/-- A unit's status register. -/
def statusOf (u : Agent) (s : State) : Status :=
  match u with
  | .dec => s.dec.dstatus
  | .enc => s.enc.estatus

/-- The write of a unit's status register. -/
def setStatus (u : Agent) (st : Status) (s : State) : State :=
  match u with
  | .dec => { s with dec := { s.dec with dstatus := st } }
  | .enc => { s with enc := { s.enc with estatus := st } }

/-- `raise f` inside an operation of unit `u` (R256): the status becomes `FAULT(f)` and the failure goes to HOST; nothing
else is saved and no control goes anywhere. Raising again in `FAULT(f)` (R182, R218) is the same and changes no register. -/
def raise (u : Agent) (f : Failure) (s : State) : State := answer (.failed f) (setStatus u (.fault f) s)

/-- The first action of DEC_START (R170, R291), with the buffer HOST hands over. With `startEnc` it is the only way out of
`FAULT(f)`: there is no return from a fault (R259). -/
def startDec (input : List Byte) (s : State) : State :=
  { s with
    ibuf := Memory.ofBytes input
    dec := { s.dec with
      pos := 0
      dcache := cacheFill Config.decCacheInit
      dlast := Config.lastInit
      drun := 0 } }

/-- The first action of ENC_START (R200, R292); `etotal` is the exact product (R35). -/
def startEnc (h : Header) (s : State) : State :=
  { s with
    enc := { s.enc with
      obuf := []
      ecache := cacheFill Config.encCacheInit
      elast := Config.lastInit
      erun := 0
      eidx := 0
      ehdr := h
      etotal := h.width.toNat * h.height.toNat } }

/-- `Emit(v)` of R68; it cannot fail. -/
def emit (bs : List Byte) (s : State) : State := { s with enc := { s.enc with obuf := Memory.append s.enc.obuf bs } }

/-- `Emit(SerChunk(c))` of R215; refused where `SerChunk` is not defined (R150). -/
def emitChunk (i : Instr) (s : State) : Result :=
  match serChunk i with
  | some bs => .next (emit bs s)
  | none => .refused (.illFormedChunk i)

/-- The decoder's cursor on the session's input (R61). -/
def cursorOf (s : State) : Cursor := ⟨s.ibuf, s.dec.pos⟩

/-- The cursor's position, moved by what has been read. -/
def setPos (pos : Nat) (s : State) : State := { s with dec := { s.dec with pos := pos } }

/-- R179, the common update after Rgb, Rgba, Index, Diff and Luma: `p` is the last pixel, it stands in its cache slot, and
it goes to HOST. -/
def producePixel (p : Pixel) (s : State) : State :=
  answer (.pixel p) { s with dec := { s.dec with dlast := p, dcache := cacheStore s.dec.dcache p } }

/-- R171, R178: the last pixel goes to HOST again, with the run counter set; no cache write (R304). -/
def repeatPixel (drun : Byte) (s : State) : State :=
  answer (.pixel s.dec.dlast) { s with dec := { s.dec with drun := drun } }

/-- The meaning of a well-formed item; an item with a field out of range has none (R109, R150; log entry 4). -/
def ifWellFormed (i : Instr) (t : State) : Result := if i.wellFormed then .next t else .refused (.illFormedChunk i)

end Sys2Proof.Machine
end

