-- ==== Sys2Proof/Machine/Chunks.lean ====
section
/-! DEFINITION. What each item does to the decoder once `ParseChunk` has read it and moved the cursor (spec R172 to R179):
one meaning per row of spec/opcode_table.json. -/

namespace Sys2Proof.Machine

/-- R173: the colour as given, alpha from the last pixel. -/
def execRgb (r g b : Byte) (s : State) : Result := .next (producePixel ⟨r, g, b, s.dec.dlast.a⟩ s)

/-- R174: the pixel as given. -/
def execRgba (r g b a : Byte) (s : State) : Result := .next (producePixel ⟨r, g, b, a⟩ s)

/-- R172: the end marker ends the session; DEC_NEXT answers `Done` (R255). -/
def execEndMarker (s : State) : Result := .next (answer .done (setStatus .dec .done s))

/-- R175: the slot's content, all four channels, read before the common update stores it again (R81). -/
def execIndex (idx : Byte) (s : State) : Result :=
  match cacheFetch s.dec.dcache idx with
  | some p => .next (producePixel p s)
  | none => .refused (.illFormedChunk (.index idx))

/-- R176, R177: the last pixel with wrapping deltas on its colour channels, alpha unchanged. -/
def shiftedPixel (last : Pixel) (dr dg db : Int) : Pixel := ⟨add8 last.r dr, add8 last.g dg, add8 last.b db, last.a⟩

/-- R176. -/
def execDiff (dr dg db : Int) (s : State) : Result :=
  ifWellFormed (.diff dr dg db) (producePixel (shiftedPixel s.dec.dlast dr dg db) s)

/-- R177: the red and blue deltas are relative to the green one. -/
def execLuma (dg drDg dbDg : Int) (s : State) : Result :=
  ifWellFormed (.luma dg drDg dbDg) (producePixel (shiftedPixel s.dec.dlast (drDg + dg) dg (dbDg + dg)) s)

/-- R178: the first pixel of the run now, the others by the replay of R171. -/
def execRun (length : Byte) (s : State) : Result := ifWellFormed (.run length) (repeatPixel (length - 1) s)

end Sys2Proof.Machine
end

