-- ==== Sys2Proof/Machine/Decoder.lean ====
section
/-! DEFINITION. The decoder unit's two operations: DEC_START (spec R170) and DEC_NEXT (R171, R172, R182). -/

namespace Sys2Proof.Machine

/-- A DEC_START that raises: the header register is unspecified again (R25, R291), a free value (log entry 3). -/
def failDecStart (f : Failure) (pos : Nat) (s : State) : Result :=
  .next (raise .dec f
    { s with
      dec := { s.dec with pos := pos, dhdr := Config.unspecifiedHeader s.freeCount }
      freeCount := s.freeCount + 1 })

/-- R170 with the header record read: `ACTIVE`, and the header goes to HOST. -/
def openDecSession (h : Header) (pos : Nat) (s : State) : Result :=
  .next (answer (.header h) { s with dec := { s.dec with pos := pos, dhdr := h, dstatus := .active } })

/-- R170, the header record: ten bytes after a good magic. -/
def readHeaderRecord (c : Cursor) (s : State) : Result :=
  match readFixed c Config.hdrBytes with
  | .got bs c' =>
    match parseHeader bs with
    | some h => openDecSession h c'.pos s
    | none => .fault (.outsideBuffer c.pos)
  | .short => failDecStart .truncated c.pos s
  | .outside a => .fault (.outsideBuffer a)

/-- R170, the magic: tested before the record's length (R258); a short one is Truncated (decision D8). -/
def readFraming (s : State) : Result :=
  match readFixed (cursorOf s) 4 with
  | .got m c' => if m = Config.magic then readHeaderRecord c' s else failDecStart .invalidMagic c'.pos s
  | .short => failDecStart .truncated s.dec.pos s
  | .outside a => .fault (.outsideBuffer a)

/-- DEC_START (R170): allowed in every status; it abandons whatever session there was. -/
def decStart (input : List Byte) (s : State) : Result := readFraming (startDec input s)

/-- R172: fetch one item at the cursor and execute it; the parser's failure becomes DEC_NEXT's (R256, R257). -/
def fetchAndExec (s : State) : Result :=
  match parseChunk (cursorOf s) with
  | .item i pos => exec i (setPos pos s)
  | .failed f pos => .next (raise .dec f (setPos pos s))
  | .outside a => .fault (.outsideBuffer a)

/-- R171: a run in progress is replayed and reads no input; otherwise one item is fetched. -/
def pullPixel (s : State) : Result :=
  if 0 < s.dec.drun.toNat then .next (repeatPixel (s.dec.drun - 1) s) else fetchAndExec s

/-- DEC_NEXT (R171, R182). -/
def decNext (s : State) : Result :=
  match s.dec.dstatus with
  | .active => pullPixel s
  | .done => .next (answer .done s)
  | .fault f => .next (raise .dec f s)
  | .idle => .refused .decNextInIdle

end Sys2Proof.Machine
end

