-- ==== Sys2Proof/Machine/Encoder.lean ====
section
/-! DEFINITION. The encoder unit's three operations: ENC_START (spec R200), ENC_PIXEL (R201 to R215) and ENC_END (R216). -/

namespace Sys2Proof.Machine

/-- ENC_START (R200): allowed in every status; it abandons whatever session there was and writes the 14 framing bytes. -/
def encStart (h : Header) (s : State) : Result :=
  .next (answer .complete (setStatus .enc .active (emit (serHeader h) (emit Config.magic (startEnc h s)))))

/-- Step 1 (R203). -/
def countPixel (s : State) : State := { s with enc := { s.enc with eidx := s.enc.eidx + 1 } }

/-- The write of `erun`. -/
def setErun (n : Byte) (s : State) : State := { s with enc := { s.enc with erun := n } }

/-- Step 8, and the same write in steps 2 and 4 (R213): `p` is the last pixel, and the operation is complete. -/
def rememberPixel (p : Pixel) (s : State) : State := answer .complete { s with enc := { s.enc with elast := p } }

/-- The pending run is emitted and the counter cleared (R204, R205). -/
def flushRun (s : State) : Result := andThen (emitChunk (.run s.enc.erun) s) fun t => .next (setErun 0 t)

/-- Step 2 (R204): a repeat of the last pixel only counts, until the run is due. -/
def encodeRepeat (p : Pixel) (s : State) : Result :=
  let t := setErun (s.enc.erun + 1) s
  andThen (if runIsDue t.enc then flushRun t else .next t) fun u => .next (rememberPixel p u)

/-- R209: the Diff test. -/
def fitsDiff (dr dg db : Int) : Bool := inRange (-2) 1 dr && inRange (-2) 1 dg && inRange (-2) 1 db

/-- R210: the Luma test. -/
def fitsLuma (dg drDg dbDg : Int) : Bool := inRange (-32) 31 dg && inRange (-8) 7 drDg && inRange (-8) 7 dbDg

/-- Step 6 (R208 to R211): the deltas with 8-bit wraparound, then Diff, else Luma, else Rgb. -/
def deltaChunk (last p : Pixel) : Instr :=
  let dr := s8 (sub8 p.r last.r)
  let dg := s8 (sub8 p.g last.g)
  let db := s8 (sub8 p.b last.b)
  let drDg := subs8 dr dg
  let dbDg := subs8 db dg
  if fitsDiff dr dg db then .diff dr dg db
  else if fitsLuma dg drDg dbDg then .luma dg drDg dbDg
  else .rgb p.r p.g p.b

/-- Steps 6 and 7 (R208 to R212): the chunk of a pixel that misses the cache. -/
def missChunk (e : EncUnit) (p : Pixel) : Instr :=
  if sameAlpha e p then deltaChunk e.elast p else .rgba p.r p.g p.b p.a

/-- Step 5 (R207). -/
def storePixel (p : Pixel) (s : State) : State :=
  { s with enc := { s.enc with ecache := cacheStore s.enc.ecache p } }

/-- Steps 4 to 8 (R206 to R213): a cache hit is Index and writes no slot; a miss stores the pixel and then encodes it. The
slot is compared before it is written (R81). -/
def encodeNew (p : Pixel) (s : State) : Result :=
  let probe := cacheProbe s.enc.ecache p
  andThen
    (if probe.2 then emitChunk (.index (BitVec.ofNat 8 probe.1.val)) s
     else emitChunk (missChunk s.enc p) (storePixel p s))
    fun t => .next (rememberPixel p t)

/-- Steps 3 to 8 (R205 to R213): a pending run is always emitted before the new pixel's chunk. -/
def encodeDiffering (p : Pixel) (s : State) : Result :=
  andThen (if runIsPending s.enc then flushRun s else .next s) (encodeNew p)

/-- `process_pixel` (R202), after step 1. -/
def encodePixel (p : Pixel) (s : State) : Result :=
  if isRepeat s.enc p then encodeRepeat p s else encodeDiffering p s

/-- ENC_PIXEL (R201, R218). -/
def encPixel (p : Pixel) (s : State) : Result :=
  match s.enc.estatus with
  | .active => if atTotal s.enc then .next (raise .enc .lengthMismatch s) else encodePixel p (countPixel s)
  | .fault f => .next (raise .enc f s)
  | .idle => .refused .encPixelWithoutSession
  | .done => .refused .encPixelWithoutSession

/-- ENC_END (R216, R218). -/
def encEnd (s : State) : Result :=
  match s.enc.estatus with
  | .active =>
    if atTotal s.enc then .next (answer .complete (setStatus .enc .done (emit Config.endMark s)))
    else .next (raise .enc .lengthMismatch s)
  | .fault f => .next (raise .enc f s)
  | .idle => .refused .encEndWithoutSession
  | .done => .refused .encEndWithoutSession

end Sys2Proof.Machine
end

