-- ==== Sys2Proof/Machine/HostOps.lean ====
section
/-! DEFINITION. One operation HOST has started (spec R50): an operation of a unit, or a pure function, which reads and
writes no register. -/

namespace Sys2Proof.Machine

/-- `ParseChunk` as HOST may use it (log entry 7): on a cursor of HOST's own, so no register of DEC moves. A position past the
end of HOST's buffer, which R61 does not have, answers EndOfInput. DESIGN CHOICE (log entry 16). -/
def parseForHost (c : Cursor) (s : State) : Result :=
  match parseChunk c with
  | .item i pos => .next (answer (.item i pos) s)
  | .failed f _ => .next (answer (.failed f) s)
  | .outside a => .fault (.outsideBuffer a)

/-- `SerChunk` as HOST may use it: refused outside its domain (R150, R262). -/
def serForHost (i : Instr) (s : State) : Result :=
  match serChunk i with
  | some bs => .next (answer (.bytes bs) s)
  | none => .refused (.illFormedChunk i)

/-- One atomic operation (R6, R50). -/
def runOp (op : HostOp) (s : State) : Result :=
  match op with
  | .decStart input => decStart input s
  | .decNext => decNext s
  | .encStart h => encStart h s
  | .encPixel p => encPixel p s
  | .encEnd => encEnd s
  | .hash p => .next (answer (.slot (pixelHash p).val) s)
  | .parseChunk input pos => parseForHost ⟨Memory.ofBytes input, pos⟩ s
  | .serChunk i => serForHost i s
  | .bytesToPix bs => .next (answer (.pixels (bytesToPix bs)) s)
  | .pixToBytes ps => .next (answer (.bytes (pixToBytes ps)) s)

end Sys2Proof.Machine
end

