-- ==== Sys2Proof/Machine/Step.lean ====
section
/-! DEFINITION. One step: the next operation HOST has asked for runs whole (spec R6); with none asked for, nothing changes
(R263). -/

namespace Sys2Proof.Machine

def step (s : State) : Host.Outcome State Fault Refusal :=
  match s.pending with
  | [] => .next s
  | op :: rest => runOp op { s with pending := rest }

/-- `s` about to fetch the instruction whose bits are `w` (log entry 6): its bytes at the cursor, the decoder `ACTIVE` with
no run in progress, and DEC_NEXT the next operation. -/
def State.withFetchWord (s : State) (nbits w : Nat) : State :=
  { s with
    ibuf := Memory.place s.ibuf s.dec.pos (tableBytes nbits w)
    dec := { s.dec with dstatus := .active, drun := 0 }
    pending := .decNext :: s.pending }

end Sys2Proof.Machine
end

