-- ==== Sys2Proof/Safety.lean ====
section
/-! DEFINITION. What a sound state of the machine is, and the words the claims are stated in. -/

namespace Sys2Proof.Machine

/-- Every slot holds the start fill or a pixel whose own slot it is: each write is at the hash of the pixel written
(R134, R223, conflict C3). -/
def SlotsInPlace (fill : Pixel) (cache : PixelCache) : Prop :=
  ∀ j : Fin Config.cacheSlots, cache[j.val] = fill ∨ pixelHash cache[j.val] = j

/-- What R223 and R216 say of an encoder session, with the file's framing in place (R76). -/
structure EncSession (e : EncUnit) : Prop where
  erun_le : e.erun.toNat ≤ 61
  eidx_le : e.eidx ≤ e.etotal
  erun_le_eidx : e.erun.toNat ≤ e.eidx
  slots : SlotsInPlace Config.encCacheInit e.ecache
  etotal_eq : e.etotal = e.ehdr.width.toNat * e.ehdr.height.toNat
  framing : (Memory.bytes e.obuf).take 14 = Config.magic ++ serHeader e.ehdr
  run_flushed : e.eidx = e.etotal → e.erun.toNat = 0

/-- The invariant of the machine: every step keeps it, from any state. -/
structure Inv (s : State) : Prop where
  ibuf_wf : Memory.wf s.ibuf = true
  obuf_wf : Memory.wf s.enc.obuf = true
  pos_le : s.dec.pos ≤ Memory.size s.ibuf
  pos_ge : s.dec.dstatus = .active → Config.firstChunk ≤ s.dec.pos
  drun_le : s.dec.drun.toNat ≤ 61
  dec_slots : SlotsInPlace Config.decCacheInit s.dec.dcache
  dec_faults : s.dec.dstatus ≠ .fault .lengthMismatch
  enc_faults : ∀ f, s.enc.estatus = .fault f → f = .lengthMismatch
  enc_session : s.enc.estatus ≠ .idle → EncSession s.enc

/-- `t` is `s` after the decoder's common update with `p` (R179), and nothing else has changed. -/
structure Yields (p : Pixel) (s t : State) : Prop where
  dlast : t.dec.dlast = p
  dcache : ∀ j : Fin Config.cacheSlots, t.dec.dcache[j.val] = if j = pixelHash p then p else s.dec.dcache[j.val]
  answers : t.answers = s.answers ++ [.pixel p]
  drun : t.dec.drun = s.dec.drun
  pos : t.dec.pos = s.dec.pos
  dhdr : t.dec.dhdr = s.dec.dhdr
  dstatus : t.dec.dstatus = s.dec.dstatus
  enc : t.enc = s.enc
  ibuf : ∀ a, Memory.read t.ibuf a = Memory.read s.ibuf a
  size : Memory.size t.ibuf = Memory.size s.ibuf
  pending : t.pending = s.pending
  freeCount : t.freeCount = s.freeCount

/-- The registers of ENC that an accepted ENC_PIXEL never writes. -/
structure EncKept (e e' : EncUnit) : Prop where
  etotal : e'.etotal = e.etotal
  ehdr : e'.ehdr = e.ehdr
  estatus : e'.estatus = e.estatus

/-- Every register of DEC, its input, the boundary to HOST, but for the answers, and the count of free values are as they
were. -/
structure DecSideKept (s t : State) : Prop where
  dec : t.dec = s.dec
  ibuf : t.ibuf = s.ibuf
  pending : t.pending = s.pending
  freeCount : t.freeCount = s.freeCount

/-- The output has grown by exactly `bs`: the bytes before are as they were, and `bs` stands at the old length (R67, R68). -/
structure Appended (bs : List Byte) (m m' : Memory) : Prop where
  size : Memory.size m' = Memory.size m + bs.length
  old : ∀ a, a < Memory.size m → Memory.read m' a = Memory.read m a
  new : ∀ k, k < bs.length → Memory.read m' (Memory.size m + k) = bs[k]?

/-- The byte of a pending run of `n`, if there is one (R102, R205). -/
def pendingRunBytes (n : Byte) : List Byte := if n = 0 then [] else [0xC0 + (n - 1)]

/-- The bytes of the chunk that tells `p` from `last` at the same alpha, with the deltas read as signed bytes
(R208 to R211). -/
def deltaBytes (last p : Pixel) : List Byte :=
  let dr := (p.r - last.r).toInt
  let dg := (p.g - last.g).toInt
  let db := (p.b - last.b).toInt
  let drDg := ((p.r - last.r) - (p.g - last.g)).toInt
  let dbDg := ((p.b - last.b) - (p.g - last.g)).toInt
  if -2 ≤ dr ∧ dr ≤ 1 ∧ -2 ≤ dg ∧ dg ≤ 1 ∧ -2 ≤ db ∧ db ≤ 1 then
    [BitVec.ofInt 8 (64 + 16 * (dr + 2) + 4 * (dg + 2) + (db + 2))]
  else if -32 ≤ dg ∧ dg ≤ 31 ∧ -8 ≤ drDg ∧ drDg ≤ 7 ∧ -8 ≤ dbDg ∧ dbDg ≤ 7 then
    [BitVec.ofInt 8 (128 + (dg + 32)), BitVec.ofInt 8 (16 * (drDg + 8) + (dbDg + 8))]
  else [0xFE, p.r, p.g, p.b]

/-- The operations of R50 that belong to a unit. -/
def HostOp.agent : HostOp → Option Agent
  | .decStart _ => some .dec
  | .decNext => some .dec
  | .encStart _ => some .enc
  | .encPixel _ => some .enc
  | .encEnd => some .enc
  | .hash _ => none
  | .parseChunk _ _ => none
  | .serChunk _ => none
  | .bytesToPix _ => none
  | .pixToBytes _ => none

/-- The two operations that begin a session (R170, R200). -/
def HostOp.isStart : HostOp → Bool
  | .decStart _ => true
  | .encStart _ => true
  | .decNext => false
  | .encPixel _ => false
  | .encEnd => false
  | .hash _ => false
  | .parseChunk _ _ => false
  | .serChunk _ => false
  | .bytesToPix _ => false
  | .pixToBytes _ => false

/-- R262's table: the requests that are given no step, in the statuses that refuse them. -/
inductive RefusedRequest (s : State) : HostOp → Refusal → Prop where
  | decNextIdle : s.dec.dstatus = .idle → RefusedRequest s .decNext .decNextInIdle
  | encPixelIdle (p : Pixel) : s.enc.estatus = .idle → RefusedRequest s (.encPixel p) .encPixelWithoutSession
  | encPixelDone (p : Pixel) : s.enc.estatus = .done → RefusedRequest s (.encPixel p) .encPixelWithoutSession
  | encEndIdle : s.enc.estatus = .idle → RefusedRequest s .encEnd .encEndWithoutSession
  | encEndDone : s.enc.estatus = .done → RefusedRequest s .encEnd .encEndWithoutSession
  | serChunk (i : Instr) : i.wellFormed = false → RefusedRequest s (.serChunk i) (.illFormedChunk i)

/-- The whole encode of R221, as HOST asks for it. -/
def encodeScript (h : Header) (pixels : List Pixel) : List HostOp :=
  .encStart h :: (pixels.map .encPixel ++ [.encEnd])

/-- The whole decode of R184, with `n` pulls. -/
def decodeScript (input : List Byte) (n : Nat) : List HostOp := .decStart input :: List.replicate n .decNext

/-- `s` with exactly these operations asked for. -/
def State.asked (s : State) (ops : List HostOp) : State := { s with pending := ops }

/-- The pixels among a list of answers. -/
def pixelsOf : List Answer → List Pixel
  | [] => []
  | .pixel p :: rest => p :: pixelsOf rest
  | .header _ :: rest => pixelsOf rest
  | .done :: rest => pixelsOf rest
  | .failed _ :: rest => pixelsOf rest
  | .complete :: rest => pixelsOf rest
  | .slot _ :: rest => pixelsOf rest
  | .item _ _ :: rest => pixelsOf rest
  | .bytes _ :: rest => pixelsOf rest
  | .pixels _ :: rest => pixelsOf rest

/-- Whether the encoder, going on from the last pixel and the cache given, takes an Index hit on a slot that no step 5 has
stored into; `stored` are the slots stored into so far (R137, R222). -/
def hitsUnstored (last : Pixel) (cache : PixelCache) (stored : List (Fin Config.cacheSlots)) : List Pixel → Bool
  | [] => false
  | p :: ps =>
    if p = last then hitsUnstored last cache stored ps
    else if cache[(pixelHash p).val] = p then
      decide (pixelHash p ∉ stored) || hitsUnstored p cache stored ps
    else hitsUnstored p (cacheStore cache p) (pixelHash p :: stored) ps

end Sys2Proof.Machine
end

