-- ==== Sys2Proof/Certificates/Slice0/Obligations.lean ====
section
/-! DEFINITION. The statements for the provers. Each docstring names the rule of spec/ it formalises. -/

open Sys2Proof Sys2Proof.Machine

/-! ### Encodings -/

/-- Words written out bit by bit from the formats of R96 to R102, one and more for each row of the table, decode to the
item they stand for. A sanity statement. -/
def Obligations.WordsOfTheFormatsDecode : Prop :=
  decode [0xFE, 0x0A, 0x14, 0x1E] = .item (.rgb 10 20 30) 4 ∧
  decode [0xFF, 0x0A, 0x0A, 0x0A, 0xFE] = .item (.rgba 10 10 10 254) 5 ∧
  decode [0, 0, 0, 0, 0, 0, 0, 1] = .item .endMarker 1 ∧
  decode [0b00110101] = .item (.index 53) 1 ∧
  decode [0b01001110] = .item (.diff (-2) 1 0) 1 ∧
  decode [0b10101010, 0b10011011] = .item (.luma 10 1 3) 2 ∧
  decode [0b11100101] = .item (.run 38) 1

/-- R151 to R157: the bytes of each item, with every field over its whole range. -/
def Obligations.SerializerWritesTheFormats : Prop :=
  (∀ r g b : Byte, serChunk (.rgb r g b) = some [0xFE, r, g, b]) ∧
  (∀ r g b a : Byte, serChunk (.rgba r g b a) = some [0xFF, r, g, b, a]) ∧
  (∀ idx : Byte, idx.toNat ≤ 63 → serChunk (.index idx) = some [idx]) ∧
  (∀ dr dg db : Fin 4, serChunk (.diff ((dr.val : Int) - 2) ((dg.val : Int) - 2) ((db.val : Int) - 2)) =
    some [BitVec.ofNat 8 (0x40 + dr.val * 16 + dg.val * 4 + db.val)]) ∧
  (∀ (dg : Fin 64) (drDg dbDg : Fin 16),
    serChunk (.luma ((dg.val : Int) - 32) ((drDg.val : Int) - 8) ((dbDg.val : Int) - 8)) =
      some [BitVec.ofNat 8 (0x80 + dg.val), BitVec.ofNat 8 (drDg.val * 16 + dbDg.val)]) ∧
  (∀ n : Fin 62, serChunk (.run (BitVec.ofNat 8 (n.val + 1))) = some [BitVec.ofNat 8 (0xC0 + n.val)]) ∧
  serChunk .endMarker = some [0, 0, 0, 0, 0, 0, 0, 1]

/-- R158: parsing what `SerChunk` wrote gives the item back and advances by its length, whatever stands before and after;
the one exception is `Index{0}` before the marker's tail, and the end marker advances by 1. -/
def Obligations.ParseAfterSerialize : Prop :=
  ∀ (i : Instr) (bs before after : List Byte), serChunk i = some bs →
    let parsed := parseChunk ⟨Memory.ofBytes (before ++ bs ++ after), before.length⟩
    (i ≠ .endMarker → ¬(i = .index 0 ∧ after.take 7 = [0, 0, 0, 0, 0, 0, 1]) →
      parsed = .item i (before.length + bs.length)) ∧
    (i = .index 0 → after.take 7 = [0, 0, 0, 0, 0, 0, 1] → parsed = .item .endMarker (before.length + 1)) ∧
    (i = .endMarker → parsed = .item .endMarker (before.length + 1))

/-- R159: a parsed chunk serializes to exactly the bytes it consumed, and each chunk has one encoding and each encoding one
chunk. -/
def Obligations.SerializeAfterParse : Prop :=
  (∀ (bs : List Byte) (pos : Nat) (i : Instr) (pos' : Nat),
    parseChunk ⟨Memory.ofBytes bs, pos⟩ = .item i pos' → i ≠ .endMarker →
      pos < pos' ∧ pos' ≤ bs.length ∧ serChunk i = some ((bs.drop pos).take (pos' - pos))) ∧
  (∀ (i j : Instr) (bs : List Byte), serChunk i = some bs → serChunk j = some bs → i = j)

/-- R149: the fault table of `ParseChunk`, on every buffer and at every position of a cursor (R61). What the model answers
for a position past the end is its own choice, stated in PositionPastTheEndIsEndOfInput. -/
def Obligations.ParserFaultTable : Prop :=
  ∀ (bs : List Byte) (pos : Nat), pos ≤ bs.length →
    match bs.drop pos with
    | [] => parseChunk ⟨Memory.ofBytes bs, pos⟩ = .failed .endOfInput pos
    | tag :: rest =>
      if (tag = 0xFE ∧ rest.length < 3) ∨ (tag = 0xFF ∧ rest.length < 4) ∨
          (0x80 ≤ tag.toNat ∧ tag.toNat ≤ 0xBF ∧ rest = []) then
        parseChunk ⟨Memory.ofBytes bs, pos⟩ = .failed .truncated (pos + 1)
      else
        ∃ i pos', parseChunk ⟨Memory.ofBytes bs, pos⟩ = .item i pos' ∧ i.wellFormed = true

/-- R103: every value of a first byte selects exactly one format, with that format's length (one byte for the marker). -/
def Obligations.FirstByteSelectsTheFormat : Prop :=
  ∀ (tag : Byte) (rest : List Byte),
    let parsed := decode (tag :: rest)
    (tag = 0 → rest.take 7 = [0, 0, 0, 0, 0, 0, 1] → parsed = .item .endMarker 1) ∧
    (tag = 0 → rest.take 7 ≠ [0, 0, 0, 0, 0, 0, 1] → parsed = .item (.index 0) 1) ∧
    (1 ≤ tag.toNat → tag.toNat ≤ 0x3F → parsed = .item (.index tag) 1) ∧
    (0x40 ≤ tag.toNat → tag.toNat ≤ 0x7F → ∃ dr dg db, parsed = .item (.diff dr dg db) 1) ∧
    (0x80 ≤ tag.toNat → tag.toNat ≤ 0xBF → rest ≠ [] → ∃ dg drDg dbDg, parsed = .item (.luma dg drDg dbDg) 2) ∧
    (0xC0 ≤ tag.toNat → tag.toNat ≤ 0xFD →
      ∃ n : Byte, n.toNat = tag.toNat % 64 + 1 ∧ parsed = .item (.run n) 1) ∧
    (tag = 0xFE → 3 ≤ rest.length → ∃ r g b, parsed = .item (.rgb r g b) 4) ∧
    (tag = 0xFF → 4 ≤ rest.length → ∃ r g b a, parsed = .item (.rgba r g b a) 5)

/-- R69: header integers are big-endian, and `to_be32` is the inverse of `be32`. -/
def Obligations.HeaderIntegersAreBigEndian : Prop :=
  (∀ b0 b1 b2 b3 : Byte,
    (be32 b0 b1 b2 b3).toNat = b0.toNat * 2 ^ 24 + b1.toNat * 2 ^ 16 + b2.toNat * 2 ^ 8 + b3.toNat ∧
    toBe32 (be32 b0 b1 b2 b3) = [b0, b1, b2, b3]) ∧
  (∀ w : Word32, ∃ b0 b1 b2 b3, toBe32 w = [b0, b1, b2, b3] ∧ be32 b0 b1 b2 b3 = w) ∧
  (∀ h : Header, (serHeader h).take 4 = toBe32 h.width ∧ ((serHeader h).drop 4).take 4 = toBe32 h.height)

/-- R92: `SerHeader` and `ParseHeader` are inverse on every ten-byte record, whose last two bytes are `channels` and then
`colorspace` (file offsets 12 and 13). -/
def Obligations.HeaderRecordRoundTrips : Prop :=
  (∀ h : Header, (serHeader h).length = 10 ∧ parseHeader (serHeader h) = some h ∧
    (serHeader h).drop 8 = [h.channels, h.colorspace]) ∧
  (∀ bs : List Byte, bs.length = 10 → ∃ h, parseHeader bs = some h ∧ serHeader h = bs)

/-- R62 to R66: a cursor primitive answers the next bytes when they are there, and otherwise consumes nothing; a peek never
moves the cursor. -/
def Obligations.CursorPrimitivesAreBoundsChecked : Prop :=
  ∀ (bs : List Byte) (pos n : Nat), pos ≤ bs.length →
    let c : Cursor := ⟨Memory.ofBytes bs, pos⟩
    (bs.length < pos + n → readFixed c n = .short ∧ peekFixed c n = .short) ∧
    (pos + n ≤ bs.length →
      readFixed c n = .got ((bs.drop pos).take n) ⟨Memory.ofBytes bs, pos + n⟩ ∧
      peekFixed c n = .got ((bs.drop pos).take n) c)

/-- U2 of 93_implementation_defined.md: the two settings of `PEEK_FAIL_IS_FAULT` agree on every chunk that is not a 0x00
tag with fewer than seven bytes after it; on such a tag, the setting true raises Truncated with the cursor one past the tag,
and the setting false gives `Index{0}`. -/
def Obligations.PeekSettingsAgreeOnLongInput : Prop :=
  ∀ (bs : List Byte) (pos : Nat),
    ((∀ rest, bs.drop pos = 0 :: rest → 7 ≤ rest.length) →
      parseChunkWith true ⟨Memory.ofBytes bs, pos⟩ = parseChunkWith false ⟨Memory.ofBytes bs, pos⟩) ∧
    (∀ rest, bs.drop pos = 0 :: rest → rest.length < 7 →
      parseChunkWith true ⟨Memory.ofBytes bs, pos⟩ = .failed .truncated (pos + 1) ∧
      parseChunkWith false ⟨Memory.ofBytes bs, pos⟩ = .item (.index 0) (pos + 1))

/-! ### The pixel cache and the byte adapters -/

/-- R131: the 8-bit wraparound of the hash does not change its result. -/
def Obligations.HashIsTheUnwrappedSum : Prop :=
  ∀ p : Pixel, (pixelHash p).val = (3 * p.r.toNat + 5 * p.g.toNat + 7 * p.b.toNat + 11 * p.a.toNat) % 64

/-- R134: a store writes one slot, and the pixel hits until another pixel with the same hash is stored. -/
def Obligations.StoredPixelHitsUntilOverwritten : Prop :=
  ∀ (cache : PixelCache) (p q : Pixel),
    (∀ j : Fin Config.cacheSlots, (cacheStore cache p)[j.val] = if j = pixelHash p then p else cache[j.val]) ∧
    cacheProbe (cacheStore cache p) p = (pixelHash p, true) ∧
    (pixelHash q ≠ pixelHash p → (cacheProbe (cacheStore (cacheStore cache p) q) p).2 = true) ∧
    (pixelHash q = pixelHash p → q ≠ p → (cacheProbe (cacheStore (cacheStore cache p) q) p).2 = false)

/-- R240, R241: `BytesToPix` groups four bytes a pixel in the order r, g, b, a, and drops a partial last group. -/
def Obligations.BytesToPixGroupsFourBytes : Prop :=
  ∀ bs : List Byte,
    (bytesToPix bs).length = bs.length / 4 ∧
    ∀ k, k < bs.length / 4 → ∃ r g b a, (bytesToPix bs)[k]? = some ⟨r, g, b, a⟩ ∧
      bs[4 * k]? = some r ∧ bs[4 * k + 1]? = some g ∧ bs[4 * k + 2]? = some b ∧ bs[4 * k + 3]? = some a

/-- R242: `PixToBytes` writes r, g, b, a of each pixel. -/
def Obligations.PixToBytesWritesRgba : Prop :=
  ∀ ps : List Pixel,
    (pixToBytes ps).length = 4 * ps.length ∧
    ∀ k p, ps[k]? = some p →
      (pixToBytes ps)[4 * k]? = some p.r ∧ (pixToBytes ps)[4 * k + 1]? = some p.g ∧
      (pixToBytes ps)[4 * k + 2]? = some p.b ∧ (pixToBytes ps)[4 * k + 3]? = some p.a

/-- R244: the two adapters are inverse where they can be. -/
def Obligations.ByteAdaptersAreInverse : Prop :=
  (∀ ps : List Pixel, bytesToPix (pixToBytes ps) = ps) ∧
  (∀ bs : List Byte, pixToBytes (bytesToPix bs) = bs.take (bs.length - bs.length % 4))

/-! ### The decoder's instructions -/

/-- R173 and R179: RGB yields its colour with the last pixel's alpha. -/
def Obligations.RgbKeepsTheLastAlpha : Prop :=
  ∀ (r g b : Byte) (s : State), ∃ t, exec (.rgb r g b) s = .next t ∧ Yields ⟨r, g, b, s.dec.dlast.a⟩ s t

/-- R174 and R179: RGBA yields its pixel. -/
def Obligations.RgbaYieldsItsPixel : Prop :=
  ∀ (r g b a : Byte) (s : State), ∃ t, exec (.rgba r g b a) s = .next t ∧ Yields ⟨r, g, b, a⟩ s t

/-- R175 and R179: INDEX yields the content of its slot, all four channels, for each of the 64 slots. -/
def Obligations.IndexYieldsTheSlot : Prop :=
  ∀ (j : Fin Config.cacheSlots) (s : State),
    ∃ t, exec (.index (BitVec.ofNat 8 j.val)) s = .next t ∧ Yields s.dec.dcache[j.val] s t

/-- R176 and R179: DIFF adds its deltas to the last pixel with 8-bit wraparound; alpha is unchanged. -/
def Obligations.DiffAddsWrappingDeltas : Prop :=
  ∀ (dr dg db : Int) (s : State), (Instr.diff dr dg db).wellFormed = true →
    ∃ t, exec (.diff dr dg db) s = .next t ∧
      Yields ⟨s.dec.dlast.r + BitVec.ofInt 8 dr, s.dec.dlast.g + BitVec.ofInt 8 dg, s.dec.dlast.b + BitVec.ofInt 8 db,
        s.dec.dlast.a⟩ s t

/-- R177 and R179: LUMA adds its green delta, and red and blue deltas relative to it, which lie in -40 to 38; with 8-bit
wraparound; alpha is unchanged. -/
def Obligations.LumaAddsDeltasRelativeToGreen : Prop :=
  ∀ (dg drDg dbDg : Int) (s : State), (Instr.luma dg drDg dbDg).wellFormed = true →
    (-40 ≤ drDg + dg ∧ drDg + dg ≤ 38 ∧ -40 ≤ dbDg + dg ∧ dbDg + dg ≤ 38) ∧
    ∃ t, exec (.luma dg drDg dbDg) s = .next t ∧
      Yields ⟨s.dec.dlast.r + BitVec.ofInt 8 (drDg + dg), s.dec.dlast.g + BitVec.ofInt 8 dg,
        s.dec.dlast.b + BitVec.ofInt 8 (dbDg + dg), s.dec.dlast.a⟩ s t

/-- R178, one call: RUN sets the run counter to its length less 1 and repeats the last pixel; the cache and the last pixel
stay. -/
def Obligations.RunRepeatsTheLastPixel : Prop :=
  ∀ (length : Byte) (s : State), 1 ≤ length.toNat → length.toNat ≤ 62 →
    ∃ t, exec (.run length) s = .next t ∧
      t = { s with
        dec := { s.dec with drun := length - 1 }
        answers := s.answers ++ [.pixel s.dec.dlast] }

/-- R172: the end marker ends the session with `Done`, and nothing else changes. -/
def Obligations.EndMarkerEndsTheSession : Prop :=
  ∀ s : State, ∃ t, exec .endMarker s = .next t ∧
    t = { s with
      dec := { s.dec with dstatus := .done }
      answers := s.answers ++ [.done] }

/-- The frame of the seven items: what an item leaves unchanged when its meaning gives a next state. The cursor is moved by
the fetch, not by the meaning. -/
def Obligations.ItemsChangeOnlyTheirRegisters : Prop :=
  ∀ (i : Instr) (s t : State), exec i s = .next t →
    t.enc = s.enc ∧ t.pending = s.pending ∧ t.freeCount = s.freeCount ∧ t.dec.pos = s.dec.pos ∧ t.dec.dhdr = s.dec.dhdr ∧
    (∀ a, Memory.read t.ibuf a = Memory.read s.ibuf a) ∧
    (∀ a, Memory.read t.enc.obuf a = Memory.read s.enc.obuf a) ∧
    ((∀ n, i ≠ .run n) → t.dec.drun = s.dec.drun) ∧
    (i ≠ .endMarker → t.dec.dstatus = s.dec.dstatus) ∧
    (((∃ n, i = .run n) ∨ i = .endMarker) → t.dec.dlast = s.dec.dlast ∧ t.dec.dcache = s.dec.dcache) ∧
    (∃ v, t.answers = s.answers ++ [v])

/-- The model's choice of log entry 4, after R150 and R262: an item with a field out of range is refused by name, and a
well-formed item never is. -/
def Obligations.OnlyIllFormedItemsAreRefused : Prop :=
  ∀ (i : Instr) (s : State),
    (i.wellFormed = false → exec i s = .refused (.illFormedChunk i)) ∧
    (i.wellFormed = true → ∃ t, exec i s = .next t)

/-- R172: with DEC_NEXT asked for, the decoder `ACTIVE` and no run in progress, a step runs the item that the bytes at the
cursor decode to, with the cursor moved past what the parser consumed and the request taken off the queue. -/
def Obligations.StepRunsTheDecodedItem : Prop :=
  ∀ (s : State) (rest : List HostOp) (i : Instr) (pos : Nat),
    s.pending = .decNext :: rest → s.dec.dstatus = .active → s.dec.drun = 0 →
    parseChunk ⟨s.ibuf, s.dec.pos⟩ = .item i pos →
      step s = exec i { s with pending := rest, dec := { s.dec with pos := pos } }

/-- Log entry 6: a word that the decoder reads as `i` and that is placed at the cursor is what the very next step runs,
from any state. -/
def Obligations.StepRunsThePlacedWord : Prop :=
  ∀ (s : State) (nbits w : Nat) (i : Instr), decodeTableWord nbits w = some i →
    ∃ pos, s.dec.pos < pos ∧
      step (s.withFetchWord nbits w) =
        exec i
          { s with
            ibuf := Memory.place s.ibuf s.dec.pos (tableBytes nbits w)
            dec := { s.dec with dstatus := .active, drun := 0, pos := pos } }

/-! ### DEC_START and DEC_NEXT -/

/-- R170, with the priorities of R258: the outcome of DEC_START on every input, from every state. What `dhdr` holds after a
failure is a free value (log entry 3), and this says nothing of it. -/
def Obligations.DecStartChecksTheFraming : Prop :=
  ∀ (input : List Byte) (s : State), ∃ t, runOp (.decStart input) s = .next t ∧
    (∀ a, Memory.read t.ibuf a = input[a]?) ∧ Memory.size t.ibuf = input.length ∧
    (∀ j : Fin Config.cacheSlots, t.dec.dcache[j.val] = ⟨0, 0, 0, 255⟩) ∧
    t.dec.dlast = ⟨0, 0, 0, 255⟩ ∧ t.dec.drun = 0 ∧ t.enc = s.enc ∧ t.pending = s.pending ∧
    (if input.length < 4 then
      t.dec.dstatus = .fault .truncated ∧ t.dec.pos = 0 ∧ t.answers = s.answers ++ [.failed .truncated]
    else if input.take 4 ≠ [0x71, 0x6F, 0x69, 0x66] then
      t.dec.dstatus = .fault .invalidMagic ∧ t.dec.pos = 4 ∧ t.answers = s.answers ++ [.failed .invalidMagic]
    else if input.length < 14 then
      t.dec.dstatus = .fault .truncated ∧ t.dec.pos = 4 ∧ t.answers = s.answers ++ [.failed .truncated]
    else
      t.dec.dstatus = .active ∧ t.dec.pos = 14 ∧ serHeader t.dec.dhdr = (input.drop 4).take 10 ∧
        t.answers = s.answers ++ [.header t.dec.dhdr])

/-- R171: a run in progress is replayed; nothing but the counter changes, and nothing is read. -/
def Obligations.RunInProgressIsReplayed : Prop :=
  ∀ s : State, s.dec.dstatus = .active → 0 < s.dec.drun.toNat →
    ∃ t, runOp .decNext s = .next t ∧ t.dec.drun.toNat + 1 = s.dec.drun.toNat ∧
      t = { s with
        dec := { s.dec with drun := t.dec.drun }
        answers := s.answers ++ [.pixel s.dec.dlast] }

/-- R178: the call that fetches a Run of `length` sets the run counter to `length` less 1 and repeats the last pixel, and
`length` calls yield `length` pixels in all; the cache and the last pixel stay. -/
def Obligations.RunYieldsLengthPixels : Prop :=
  ∀ (s : State) (length : Byte) (pos : Nat) (rest : List HostOp),
    s.dec.dstatus = .active → s.dec.drun = 0 → parseChunk ⟨s.ibuf, s.dec.pos⟩ = .item (.run length) pos →
      runOp .decNext s =
        .next { s with
          dec := { s.dec with pos := pos, drun := length - 1 }
          answers := s.answers ++ [.pixel s.dec.dlast] } ∧
      Sys2Proof.core.run length.toNat (s.asked (List.replicate length.toNat .decNext ++ rest)) =
        .next { s with
          pending := rest
          dec := { s.dec with pos := pos }
          answers := s.answers ++ List.replicate length.toNat (.pixel s.dec.dlast) }

/-- R257 for DEC_NEXT: the parser's failure is the fault of DEC_NEXT; the cursor stands after the bytes read before it, and
no other register of DEC changes but the status. -/
def Obligations.ParserFailureFaultsTheDecoder : Prop :=
  ∀ (s : State) (f : Failure) (pos : Nat),
    s.dec.dstatus = .active → s.dec.drun = 0 → parseChunk ⟨s.ibuf, s.dec.pos⟩ = .failed f pos →
      runOp .decNext s =
        .next { s with
          dec := { s.dec with pos := pos, dstatus := .fault f }
          answers := s.answers ++ [.failed f] } ∧
      ((f = .endOfInput ∧ pos = s.dec.pos) ∨ (f = .truncated ∧ pos = s.dec.pos + 1))

/-- R182: DEC_NEXT outside `ACTIVE`. -/
def Obligations.DecNextOutsideActive : Prop :=
  ∀ s : State,
    (s.dec.dstatus = .done → runOp .decNext s = .next { s with answers := s.answers ++ [.done] }) ∧
    (∀ f, s.dec.dstatus = .fault f → runOp .decNext s = .next { s with answers := s.answers ++ [.failed f] }) ∧
    (s.dec.dstatus = .idle → runOp .decNext s = .refused .decNextInIdle)

/-- R181: the decoder does not use the header: with another header in `dhdr`, DEC_NEXT does the same. -/
def Obligations.DecNextIgnoresTheHeader : Prop :=
  ∀ (s t : State) (h : Header), runOp .decNext s = .next t →
    t.dec.dhdr = s.dec.dhdr ∧
    runOp .decNext { s with dec := { s.dec with dhdr := h } } = .next { t with dec := { t.dec with dhdr := h } }

/-- R183: every DEC_NEXT makes progress, and a session yields at most `62 * (IBUF_LEN - 14)` pixels and has ended after
one call more. -/
def Obligations.DecodeSessionsEnd : Prop :=
  (∀ s t : State, Inv s → s.dec.dstatus = .active → runOp .decNext s = .next t →
    (t.dec.drun.toNat + 1 = s.dec.drun.toNat ∧ t.dec.pos = s.dec.pos) ∨
    (s.dec.drun.toNat = 0 ∧ s.dec.pos < t.dec.pos ∧ t.dec.dstatus = .active) ∨
    t.dec.dstatus = .done ∨ (∃ f, t.dec.dstatus = .fault f)) ∧
  (∀ (s : State) (input : List Byte) (n : Nat),
    ∃ t, Sys2Proof.core.run (n + 1) (s.asked (decodeScript input n)) = .next t ∧
      (pixelsOf (t.answers.drop s.answers.length)).length ≤ 62 * (input.length - 14) ∧
      (62 * (input.length - 14) < n → t.dec.dstatus = .done ∨ ∃ f, t.dec.dstatus = .fault f))

/-! ### The encoder's operations -/

/-- R200: ENC_START from every state: the session's start values, the exact product, and the 14 framing bytes. -/
def Obligations.EncStartWritesTheFraming : Prop :=
  ∀ (h : Header) (s : State), ∃ t, runOp (.encStart h) s = .next t ∧ DecSideKept s t ∧
    Memory.bytes t.enc.obuf = [0x71, 0x6F, 0x69, 0x66] ++ serHeader h ∧ Memory.wf t.enc.obuf = true ∧
    t.enc.olen = 14 ∧
    (∀ j : Fin Config.cacheSlots, t.enc.ecache[j.val] = ⟨0, 0, 0, 0⟩) ∧ t.enc.elast = ⟨0, 0, 0, 255⟩ ∧
    t.enc.erun = 0 ∧ t.enc.eidx = 0 ∧ t.enc.ehdr = h ∧ t.enc.etotal = h.width.toNat * h.height.toNat ∧
    t.enc.estatus = .active

/-- R254: LengthMismatch is raised by ENC_PIXEL when a pixel is offered with `eidx = etotal` and by ENC_END when pixels are
missing, and nothing but the status changes. -/
def Obligations.WrongPixelCountRaises : Prop :=
  ∀ (s : State) (p : Pixel), s.enc.estatus = .active →
    (s.enc.eidx = s.enc.etotal →
      runOp (.encPixel p) s =
        .next { s with
          enc := { s.enc with estatus := .fault .lengthMismatch }
          answers := s.answers ++ [.failed .lengthMismatch] }) ∧
    (s.enc.eidx < s.enc.etotal →
      runOp .encEnd s =
        .next { s with
          enc := { s.enc with estatus := .fault .lengthMismatch }
          answers := s.answers ++ [.failed .lengthMismatch] })

/-- R204: a repeat counts, and is emitted when the run is full or the pixel is final; the cache is untouched. -/
def Obligations.RepeatedPixelExtendsTheRun : Prop :=
  ∀ (s : State) (p : Pixel), s.enc.estatus = .active → s.enc.eidx ≠ s.enc.etotal → s.enc.erun.toNat ≤ 61 →
    Memory.wf s.enc.obuf = true → p = s.enc.elast →
      ∃ t, runOp (.encPixel p) s = .next t ∧ DecSideKept s t ∧ EncKept s.enc t.enc ∧
        t.enc.eidx = s.enc.eidx + 1 ∧ t.enc.elast = p ∧ t.enc.ecache = s.enc.ecache ∧
        (if s.enc.erun.toNat + 1 = 62 ∨ s.enc.eidx + 1 = s.enc.etotal then
          t.enc.erun = 0 ∧ Appended [0xC0 + s.enc.erun] s.enc.obuf t.enc.obuf
        else
          t.enc.erun.toNat = s.enc.erun.toNat + 1 ∧ t.enc.obuf = s.enc.obuf)

/-- R206 with the flush of R205: a new pixel that its cache slot holds is Index, after a pending run; no slot is written. -/
def Obligations.CachedPixelBecomesIndex : Prop :=
  ∀ (s : State) (p : Pixel), s.enc.estatus = .active → s.enc.eidx ≠ s.enc.etotal → s.enc.erun.toNat ≤ 61 →
    Memory.wf s.enc.obuf = true → p ≠ s.enc.elast → s.enc.ecache[(pixelHash p).val] = p →
      ∃ t, runOp (.encPixel p) s = .next t ∧ DecSideKept s t ∧ EncKept s.enc t.enc ∧
        t.enc.eidx = s.enc.eidx + 1 ∧ t.enc.elast = p ∧ t.enc.erun = 0 ∧ t.enc.ecache = s.enc.ecache ∧
        Appended (pendingRunBytes s.enc.erun ++ [BitVec.ofNat 8 (pixelHash p).val]) s.enc.obuf t.enc.obuf

/-- R207 to R211 with the flush of R205: a new pixel of the same alpha that misses is stored, and written as Diff, else Luma,
else Rgb. -/
def Obligations.SameAlphaMissBecomesDiffLumaOrRgb : Prop :=
  ∀ (s : State) (p : Pixel), s.enc.estatus = .active → s.enc.eidx ≠ s.enc.etotal → s.enc.erun.toNat ≤ 61 →
    Memory.wf s.enc.obuf = true → p ≠ s.enc.elast → s.enc.ecache[(pixelHash p).val] ≠ p → p.a = s.enc.elast.a →
      ∃ t, runOp (.encPixel p) s = .next t ∧ DecSideKept s t ∧ EncKept s.enc t.enc ∧
        t.enc.eidx = s.enc.eidx + 1 ∧ t.enc.elast = p ∧ t.enc.erun = 0 ∧
        (∀ j : Fin Config.cacheSlots,
          t.enc.ecache[j.val] = if j = pixelHash p then p else s.enc.ecache[j.val]) ∧
        Appended (pendingRunBytes s.enc.erun ++ deltaBytes s.enc.elast p) s.enc.obuf t.enc.obuf

/-- R212 with R205 and R207: a new pixel of another alpha that misses is stored and written as Rgba. -/
def Obligations.ChangedAlphaMissBecomesRgba : Prop :=
  ∀ (s : State) (p : Pixel), s.enc.estatus = .active → s.enc.eidx ≠ s.enc.etotal → s.enc.erun.toNat ≤ 61 →
    Memory.wf s.enc.obuf = true → s.enc.ecache[(pixelHash p).val] ≠ p → p.a ≠ s.enc.elast.a →
      ∃ t, runOp (.encPixel p) s = .next t ∧ DecSideKept s t ∧ EncKept s.enc t.enc ∧
        t.enc.eidx = s.enc.eidx + 1 ∧ t.enc.elast = p ∧ t.enc.erun = 0 ∧
        (∀ j : Fin Config.cacheSlots,
          t.enc.ecache[j.val] = if j = pixelHash p then p else s.enc.ecache[j.val]) ∧
        Appended (pendingRunBytes s.enc.erun ++ [0xFF, p.r, p.g, p.b, p.a]) s.enc.obuf t.enc.obuf

/-- R215, R220: one accepted ENC_PIXEL emits nothing, one chunk, or a Run and one chunk; every chunk is well-formed, an Index
names the pixel's own slot, and the bytes are at most six. -/
def Obligations.OnePixelEmitsAtMostTwoChunks : Prop :=
  ∀ (s : State) (p : Pixel), s.enc.estatus = .active → s.enc.eidx ≠ s.enc.etotal → s.enc.erun.toNat ≤ 61 →
    Memory.wf s.enc.obuf = true →
    ∃ t chunks, runOp (.encPixel p) s = .next t ∧
      Appended ((chunks.map encode).flatten) s.enc.obuf t.enc.obuf ∧
      ((chunks.map encode).flatten).length ≤ 6 ∧
      (chunks = [] ∨ (∃ i, chunks = [i]) ∨ ∃ n i, chunks = [.run n, i]) ∧
      (∀ i ∈ chunks, i.wellFormed = true ∧ i ≠ .endMarker ∧
        (∀ n, i = .run n → 1 ≤ n.toNat ∧ n.toNat ≤ 62) ∧
        (∀ idx, i = .index idx → idx.toNat = (pixelHash p).val))

/-- R216: ENC_END with every pixel given writes the end marker and closes the session; with pixels missing it raises. In
a sound state no run is pending then. -/
def Obligations.EncEndClosesTheFile : Prop :=
  ∀ s : State, s.enc.estatus = .active → Memory.wf s.enc.obuf = true →
    (s.enc.eidx = s.enc.etotal →
      ∃ t, runOp .encEnd s = .next t ∧ DecSideKept s t ∧ t.enc.estatus = .done ∧
        Appended [0, 0, 0, 0, 0, 0, 0, 1] s.enc.obuf t.enc.obuf ∧
        t.enc = { s.enc with estatus := .done, obuf := t.enc.obuf }) ∧
    (s.enc.eidx ≠ s.enc.etotal →
      runOp .encEnd s =
        .next { s with
          enc := { s.enc with estatus := .fault .lengthMismatch }
          answers := s.answers ++ [.failed .lengthMismatch] }) ∧
    (Inv s → s.enc.eidx = s.enc.etotal → s.enc.erun = 0)

/-- The model's choice of log entry 1, after R50: an operation of ENC that gives a next state has answered either that it is
complete, in a session that is open or done, or the failure that its status holds. -/
def Obligations.EncOperationsAnswerCompleteOrFail : Prop :=
  ∀ (s t : State) (op : HostOp), op.agent = some .enc → runOp op s = .next t →
    (t.answers = s.answers ++ [.complete] ∧ (t.enc.estatus = .active ∨ t.enc.estatus = .done)) ∨
    (∃ f, t.answers = s.answers ++ [.failed f] ∧ t.enc.estatus = .fault f)

/-- R218: ENC_PIXEL and ENC_END outside `ACTIVE`. -/
def Obligations.EncOperationsOutsideActive : Prop :=
  ∀ (s : State) (p : Pixel),
    (s.enc.estatus = .idle ∨ s.enc.estatus = .done →
      runOp (.encPixel p) s = .refused .encPixelWithoutSession ∧ runOp .encEnd s = .refused .encEndWithoutSession) ∧
    (∀ f, s.enc.estatus = .fault f →
      runOp (.encPixel p) s = .next { s with answers := s.answers ++ [.failed f] } ∧
      runOp .encEnd s = .next { s with answers := s.answers ++ [.failed f] })

/-- R221: a whole encode ends `DONE` exactly when the pixels are as many as the header says, and otherwise with
LengthMismatch. -/
def Obligations.WholeEncodeEndsByItsPixelCount : Prop :=
  ∀ (s : State) (h : Header) (pixels : List Pixel),
    ∃ t, Sys2Proof.core.run (pixels.length + 2) (s.asked (encodeScript h pixels)) = .next t ∧
      (pixels.length = h.width.toNat * h.height.toNat → t.enc.estatus = .done) ∧
      (pixels.length ≠ h.width.toNat * h.height.toNat →
        t.enc.estatus = .fault .lengthMismatch ∧ Answer.failed .lengthMismatch ∈ t.answers)

/-- R222: the round trip. If the encoder never takes an Index hit on a slot it has not stored into, decoding its output
gives the header, exactly the pixels, and `Done`; the excluded event can only be the pixel `{0,0,0,0}`, so an image
without it is safe; and the one-pixel image of that pixel is the smallest counterexample. -/
def Obligations.DecodeAfterEncodeGivesThePixels : Prop :=
  (∀ (s t u : State) (h : Header) (pixels : List Pixel),
    pixels.length = h.width.toNat * h.height.toNat →
    hitsUnstored Config.lastInit (cacheFill Config.encCacheInit) [] pixels = false →
    Sys2Proof.core.run (pixels.length + 2) (s.asked (encodeScript h pixels)) = .next t →
      ∃ v, Sys2Proof.core.run (pixels.length + 2)
          (u.asked (decodeScript (Memory.bytes t.enc.obuf) (pixels.length + 1))) = .next v ∧
        v.answers = u.answers ++ (.header h :: (pixels.map .pixel ++ [.done])) ∧ v.dec.dstatus = .done) ∧
  (∀ pixels : List Pixel, (⟨0, 0, 0, 0⟩ : Pixel) ∉ pixels →
    hitsUnstored Config.lastInit (cacheFill Config.encCacheInit) [] pixels = false) ∧
  (∀ (before : List Pixel) (p : Pixel),
    hitsUnstored Config.lastInit (cacheFill Config.encCacheInit) [] before = false →
    hitsUnstored Config.lastInit (cacheFill Config.encCacheInit) [] (before ++ [p]) = true → p = ⟨0, 0, 0, 0⟩) ∧
  (∃ t v, Sys2Proof.core.run 3 (State.reset.asked (encodeScript ⟨1, 1, 4, 0⟩ [⟨0, 0, 0, 0⟩])) = .next t ∧
    Sys2Proof.core.run 3 (State.reset.asked (decodeScript (Memory.bytes t.enc.obuf) 2)) = .next v ∧
    v.answers = [.header ⟨1, 1, 4, 0⟩, .pixel ⟨0, 0, 0, 255⟩, .done])

/-! ### The whole machine -/

/-- R290, R291, R292: after power-on both units are `IDLE`, and in `IDLE` a unit accepts only its START operation. What the
other registers hold then is the model's choice (log entry 2), and this says nothing of it. -/
def Obligations.IdleUnitsAcceptOnlyStart : Prop :=
  State.reset.dec.dstatus = .idle ∧ State.reset.enc.estatus = .idle ∧
  (∀ s : State, s.dec.dstatus = .idle →
    runOp .decNext s = .refused .decNextInIdle ∧ ∀ input, ∃ t, runOp (.decStart input) s = .next t) ∧
  (∀ s : State, s.enc.estatus = .idle →
    (∀ p, runOp (.encPixel p) s = .refused .encPixelWithoutSession) ∧
    runOp .encEnd s = .refused .encEndWithoutSession ∧ ∀ h, ∃ t, runOp (.encStart h) s = .next t)

/-- The invariant holds of the reset state. The values of the registers that R290 leaves unspecified are the model's choice
(log entry 2). -/
def Obligations.PowerOnStateIsSound : Prop := Inv State.reset

/-- R223: every step keeps the invariant, from every state that has it, and in an `ACTIVE` encoder session it gives the
bounds of R223. -/
def Obligations.EveryStepKeepsTheInvariant : Prop :=
  (∀ s t : State, Inv s → step s = .next t → Inv t) ∧
  (∀ s : State, Inv s → s.enc.estatus = .active →
    s.enc.erun.toNat ≤ 61 ∧ s.enc.eidx ≤ s.enc.etotal ∧ s.enc.erun.toNat ≤ s.enc.eidx ∧
    (∀ j : Fin Config.cacheSlots, s.enc.ecache[j.val] = ⟨0, 0, 0, 0⟩ ∨ pixelHash s.enc.ecache[j.val] = j) ∧
    14 ≤ s.enc.olen)

/-- R65: no read is ever made outside the buffer: from a sound state no step stops with a fault. -/
def Obligations.NoReadLeavesTheBuffer : Prop :=
  ∀ (s : State) (f : Fault), Inv s → step s ≠ .fault f

/-- R261: from a sound state, each operation ends with one answer, or is one of the refusals of R262's table. -/
def Obligations.OperationsAnswerOrAreRefusedByTheTable : Prop :=
  ∀ (s : State) (op : HostOp) (rest : List HostOp), Inv s → s.pending = op :: rest →
    (∃ t v, step s = .next t ∧ t.pending = rest ∧ t.answers = s.answers ++ [v]) ∨
    (∃ r, step s = .refused r ∧ RefusedRequest s op r)

/-- R256: an operation of a unit whose answer is the failure `f` leaves that unit in `FAULT(f)`, outputs nothing else and
emits no byte; the other unit and the requests are untouched. Where the operation is no START, nothing else of the unit has
changed either, but for the bytes that DEC_NEXT has read (R257); what a failing DEC_START leaves is DecStartChecksTheFraming. -/
def Obligations.FaultEntry : Prop :=
  ∀ (s t : State) (op : HostOp) (u : Agent) (f : Failure),
    op.agent = some u → runOp op s = .next t → t.answers = s.answers ++ [.failed f] →
      statusOf u t = .fault f ∧ t.enc.obuf = s.enc.obuf ∧ t.pending = s.pending ∧
      (u = .dec → t.enc = s.enc) ∧ (u = .enc → t.dec = s.dec ∧ t.ibuf = s.ibuf) ∧
      (op.isStart = false →
        t.ibuf = s.ibuf ∧ t.freeCount = s.freeCount ∧
        (u = .dec → t.dec = { s.dec with dstatus := .fault f, pos := t.dec.pos }) ∧
        (u = .enc → t.enc = { s.enc with estatus := .fault f }))

/-- R259: a unit in `FAULT(f)` stays there: every later operation other than a START raises `f` again if it is the unit's
own, and none changes a register of the unit. -/
def Obligations.FaultsAreStickyUntilStart : Prop :=
  ∀ (s t : State) (op : HostOp) (f : Failure), op.isStart = false → runOp op s = .next t →
    (s.dec.dstatus = .fault f → t.dec = s.dec ∧ (op.agent = some .dec → t.answers = s.answers ++ [.failed f])) ∧
    (s.enc.estatus = .fault f → t.enc = s.enc ∧ (op.agent = some .enc → t.answers = s.answers ++ [.failed f]))

/-- R263: the only thing that changes a unit's state is an operation HOST starts on that unit: with nothing asked for a
step changes nothing, an operation of one unit leaves the other alone, and the pure functions leave both alone. -/
def Obligations.OnlyItsOwnOperationsChangeAUnit : Prop :=
  (∀ s : State, s.pending = [] → step s = .next s) ∧
  (∀ (s t : State) (op : HostOp), runOp op s = .next t →
    (op.agent ≠ some .dec → t.dec = s.dec ∧ t.ibuf = s.ibuf) ∧ (op.agent ≠ some .enc → t.enc = s.enc))

/-- R6: a step of ENC and a step of DEC commute, but for the order of their answers. -/
def Obligations.StepsOfTheTwoUnitsCommute : Prop :=
  ∀ (s s1 s2 : State) (d e : HostOp), d.agent = some .dec → e.agent = some .enc →
    runOp d s = .next s1 → runOp e s1 = .next s2 →
      ∃ s1' s2', runOp e s = .next s1' ∧ runOp d s1' = .next s2' ∧
        s2'.dec = s2.dec ∧ s2'.enc = s2.enc ∧ s2'.ibuf = s2.ibuf

/-- R24, R61, R67: within a session the cursor only moves forward, the input does not change, and the output only grows. -/
def Obligations.BuffersOnlyMoveForward : Prop :=
  ∀ (s t : State) (op : HostOp), Inv s → op.isStart = false → runOp op s = .next t →
    s.dec.pos ≤ t.dec.pos ∧ t.dec.pos ≤ Memory.size t.ibuf ∧ t.ibuf = s.ibuf ∧
    s.enc.olen ≤ t.enc.olen ∧
    ∀ a, a < s.enc.olen → Memory.read t.enc.obuf a = Memory.read s.enc.obuf a

/-- R50: what the pure functions answer when HOST uses them; no register changes. That they are requests of their own, and
`ParseChunk` on a cursor of HOST's own, is the model's choice (log entry 7). -/
def Obligations.PureFunctionsAnswerTheirResult : Prop :=
  ∀ s : State,
    (∀ p, runOp (.hash p) s = .next { s with answers := s.answers ++ [.slot (pixelHash p).val] }) ∧
    (∀ i, i.wellFormed = true →
      runOp (.serChunk i) s = .next { s with answers := s.answers ++ [.bytes (encode i)] }) ∧
    (∀ i, i.wellFormed = false → runOp (.serChunk i) s = .refused (.illFormedChunk i)) ∧
    (∀ input pos i pos', parseChunk ⟨Memory.ofBytes input, pos⟩ = .item i pos' →
      runOp (.parseChunk input pos) s = .next { s with answers := s.answers ++ [.item i pos'] }) ∧
    (∀ input pos f pos', parseChunk ⟨Memory.ofBytes input, pos⟩ = .failed f pos' →
      runOp (.parseChunk input pos) s = .next { s with answers := s.answers ++ [.failed f] }) ∧
    (∀ bs, runOp (.bytesToPix bs) s = .next { s with answers := s.answers ++ [.pixels (bytesToPix bs)] }) ∧
    (∀ ps, runOp (.pixToBytes ps) s = .next { s with answers := s.answers ++ [.bytes (pixToBytes ps)] })

/-- The model's choice of log entry 16: at a position past the end of a buffer, which is no cursor of R61, `ParseChunk`
answers EndOfInput and leaves the position, and so does HOST's own request. -/
def Obligations.PositionPastTheEndIsEndOfInput : Prop :=
  ∀ (bs : List Byte) (pos : Nat) (s : State), bs.length < pos →
    parseChunk ⟨Memory.ofBytes bs, pos⟩ = .failed .endOfInput pos ∧
    runOp (.parseChunk bs pos) s = .next { s with answers := s.answers ++ [.failed .endOfInput] }
end

