-- ==== Sys2Proof/Laws/State.lean ====
section
/-! SUPPORT. One lemma per field per update of State, each true by unfolding, so that no later proof unfolds a record update. -/

namespace Sys2Proof.Machine

@[simp] theorem answer_dec (v : Answer) (s : State) : (answer v s).dec = s.dec := rfl
@[simp] theorem answer_enc (v : Answer) (s : State) : (answer v s).enc = s.enc := rfl
@[simp] theorem answer_ibuf (v : Answer) (s : State) : (answer v s).ibuf = s.ibuf := rfl
@[simp] theorem answer_pending (v : Answer) (s : State) : (answer v s).pending = s.pending := rfl
@[simp] theorem answer_answers (v : Answer) (s : State) : (answer v s).answers = s.answers ++ [v] := rfl
@[simp] theorem answer_freeCount (v : Answer) (s : State) : (answer v s).freeCount = s.freeCount := rfl

@[simp] theorem setStatus_dec_dec_dcache (st : Status) (s : State) : (setStatus .dec st s).dec.dcache = s.dec.dcache := rfl
@[simp] theorem setStatus_dec_dec_dlast (st : Status) (s : State) : (setStatus .dec st s).dec.dlast = s.dec.dlast := rfl
@[simp] theorem setStatus_dec_dec_drun (st : Status) (s : State) : (setStatus .dec st s).dec.drun = s.dec.drun := rfl
@[simp] theorem setStatus_dec_dec_pos (st : Status) (s : State) : (setStatus .dec st s).dec.pos = s.dec.pos := rfl
@[simp] theorem setStatus_dec_dec_dhdr (st : Status) (s : State) : (setStatus .dec st s).dec.dhdr = s.dec.dhdr := rfl
@[simp] theorem setStatus_dec_dec_dstatus (st : Status) (s : State) : (setStatus .dec st s).dec.dstatus = st := rfl
@[simp] theorem setStatus_dec_enc (st : Status) (s : State) : (setStatus .dec st s).enc = s.enc := rfl
@[simp] theorem setStatus_dec_ibuf (st : Status) (s : State) : (setStatus .dec st s).ibuf = s.ibuf := rfl
@[simp] theorem setStatus_dec_pending (st : Status) (s : State) : (setStatus .dec st s).pending = s.pending := rfl
@[simp] theorem setStatus_dec_answers (st : Status) (s : State) : (setStatus .dec st s).answers = s.answers := rfl
@[simp] theorem setStatus_dec_freeCount (st : Status) (s : State) : (setStatus .dec st s).freeCount = s.freeCount := rfl

@[simp] theorem setStatus_enc_dec (st : Status) (s : State) : (setStatus .enc st s).dec = s.dec := rfl
@[simp] theorem setStatus_enc_enc_ecache (st : Status) (s : State) : (setStatus .enc st s).enc.ecache = s.enc.ecache := rfl
@[simp] theorem setStatus_enc_enc_elast (st : Status) (s : State) : (setStatus .enc st s).enc.elast = s.enc.elast := rfl
@[simp] theorem setStatus_enc_enc_erun (st : Status) (s : State) : (setStatus .enc st s).enc.erun = s.enc.erun := rfl
@[simp] theorem setStatus_enc_enc_eidx (st : Status) (s : State) : (setStatus .enc st s).enc.eidx = s.enc.eidx := rfl
@[simp] theorem setStatus_enc_enc_etotal (st : Status) (s : State) : (setStatus .enc st s).enc.etotal = s.enc.etotal := rfl
@[simp] theorem setStatus_enc_enc_ehdr (st : Status) (s : State) : (setStatus .enc st s).enc.ehdr = s.enc.ehdr := rfl
@[simp] theorem setStatus_enc_enc_estatus (st : Status) (s : State) : (setStatus .enc st s).enc.estatus = st := rfl
@[simp] theorem setStatus_enc_enc_obuf (st : Status) (s : State) : (setStatus .enc st s).enc.obuf = s.enc.obuf := rfl
@[simp] theorem setStatus_enc_ibuf (st : Status) (s : State) : (setStatus .enc st s).ibuf = s.ibuf := rfl
@[simp] theorem setStatus_enc_pending (st : Status) (s : State) : (setStatus .enc st s).pending = s.pending := rfl
@[simp] theorem setStatus_enc_answers (st : Status) (s : State) : (setStatus .enc st s).answers = s.answers := rfl
@[simp] theorem setStatus_enc_freeCount (st : Status) (s : State) : (setStatus .enc st s).freeCount = s.freeCount := rfl

@[simp] theorem raise_dec_dec_dcache (f : Failure) (s : State) : (raise .dec f s).dec.dcache = s.dec.dcache := rfl
@[simp] theorem raise_dec_dec_dlast (f : Failure) (s : State) : (raise .dec f s).dec.dlast = s.dec.dlast := rfl
@[simp] theorem raise_dec_dec_drun (f : Failure) (s : State) : (raise .dec f s).dec.drun = s.dec.drun := rfl
@[simp] theorem raise_dec_dec_pos (f : Failure) (s : State) : (raise .dec f s).dec.pos = s.dec.pos := rfl
@[simp] theorem raise_dec_dec_dhdr (f : Failure) (s : State) : (raise .dec f s).dec.dhdr = s.dec.dhdr := rfl
@[simp] theorem raise_dec_dec_dstatus (f : Failure) (s : State) : (raise .dec f s).dec.dstatus = .fault f := rfl
@[simp] theorem raise_dec_enc (f : Failure) (s : State) : (raise .dec f s).enc = s.enc := rfl
@[simp] theorem raise_dec_ibuf (f : Failure) (s : State) : (raise .dec f s).ibuf = s.ibuf := rfl
@[simp] theorem raise_dec_pending (f : Failure) (s : State) : (raise .dec f s).pending = s.pending := rfl
@[simp] theorem raise_dec_answers (f : Failure) (s : State) : (raise .dec f s).answers = s.answers ++ [.failed f] := rfl
@[simp] theorem raise_dec_freeCount (f : Failure) (s : State) : (raise .dec f s).freeCount = s.freeCount := rfl

@[simp] theorem raise_enc_dec (f : Failure) (s : State) : (raise .enc f s).dec = s.dec := rfl
@[simp] theorem raise_enc_enc_ecache (f : Failure) (s : State) : (raise .enc f s).enc.ecache = s.enc.ecache := rfl
@[simp] theorem raise_enc_enc_elast (f : Failure) (s : State) : (raise .enc f s).enc.elast = s.enc.elast := rfl
@[simp] theorem raise_enc_enc_erun (f : Failure) (s : State) : (raise .enc f s).enc.erun = s.enc.erun := rfl
@[simp] theorem raise_enc_enc_eidx (f : Failure) (s : State) : (raise .enc f s).enc.eidx = s.enc.eidx := rfl
@[simp] theorem raise_enc_enc_etotal (f : Failure) (s : State) : (raise .enc f s).enc.etotal = s.enc.etotal := rfl
@[simp] theorem raise_enc_enc_ehdr (f : Failure) (s : State) : (raise .enc f s).enc.ehdr = s.enc.ehdr := rfl
@[simp] theorem raise_enc_enc_estatus (f : Failure) (s : State) : (raise .enc f s).enc.estatus = .fault f := rfl
@[simp] theorem raise_enc_enc_obuf (f : Failure) (s : State) : (raise .enc f s).enc.obuf = s.enc.obuf := rfl
@[simp] theorem raise_enc_ibuf (f : Failure) (s : State) : (raise .enc f s).ibuf = s.ibuf := rfl
@[simp] theorem raise_enc_pending (f : Failure) (s : State) : (raise .enc f s).pending = s.pending := rfl
@[simp] theorem raise_enc_answers (f : Failure) (s : State) : (raise .enc f s).answers = s.answers ++ [.failed f] := rfl
@[simp] theorem raise_enc_freeCount (f : Failure) (s : State) : (raise .enc f s).freeCount = s.freeCount := rfl

@[simp] theorem startDec_dec_dcache (input : List Byte) (s : State) : (startDec input s).dec.dcache = cacheFill Config.decCacheInit := rfl
@[simp] theorem startDec_dec_dlast (input : List Byte) (s : State) : (startDec input s).dec.dlast = Config.lastInit := rfl
@[simp] theorem startDec_dec_drun (input : List Byte) (s : State) : (startDec input s).dec.drun = 0 := rfl
@[simp] theorem startDec_dec_pos (input : List Byte) (s : State) : (startDec input s).dec.pos = 0 := rfl
@[simp] theorem startDec_dec_dhdr (input : List Byte) (s : State) : (startDec input s).dec.dhdr = s.dec.dhdr := rfl
@[simp] theorem startDec_dec_dstatus (input : List Byte) (s : State) : (startDec input s).dec.dstatus = s.dec.dstatus := rfl
@[simp] theorem startDec_enc (input : List Byte) (s : State) : (startDec input s).enc = s.enc := rfl
@[simp] theorem startDec_ibuf (input : List Byte) (s : State) : (startDec input s).ibuf = Memory.ofBytes input := rfl
@[simp] theorem startDec_pending (input : List Byte) (s : State) : (startDec input s).pending = s.pending := rfl
@[simp] theorem startDec_answers (input : List Byte) (s : State) : (startDec input s).answers = s.answers := rfl
@[simp] theorem startDec_freeCount (input : List Byte) (s : State) : (startDec input s).freeCount = s.freeCount := rfl

@[simp] theorem startEnc_dec (h : Header) (s : State) : (startEnc h s).dec = s.dec := rfl
@[simp] theorem startEnc_enc_ecache (h : Header) (s : State) : (startEnc h s).enc.ecache = cacheFill Config.encCacheInit := rfl
@[simp] theorem startEnc_enc_elast (h : Header) (s : State) : (startEnc h s).enc.elast = Config.lastInit := rfl
@[simp] theorem startEnc_enc_erun (h : Header) (s : State) : (startEnc h s).enc.erun = 0 := rfl
@[simp] theorem startEnc_enc_eidx (h : Header) (s : State) : (startEnc h s).enc.eidx = 0 := rfl
@[simp] theorem startEnc_enc_etotal (h : Header) (s : State) : (startEnc h s).enc.etotal = h.width.toNat * h.height.toNat := rfl
@[simp] theorem startEnc_enc_ehdr (h : Header) (s : State) : (startEnc h s).enc.ehdr = h := rfl
@[simp] theorem startEnc_enc_estatus (h : Header) (s : State) : (startEnc h s).enc.estatus = s.enc.estatus := rfl
@[simp] theorem startEnc_enc_obuf (h : Header) (s : State) : (startEnc h s).enc.obuf = [] := rfl
@[simp] theorem startEnc_ibuf (h : Header) (s : State) : (startEnc h s).ibuf = s.ibuf := rfl
@[simp] theorem startEnc_pending (h : Header) (s : State) : (startEnc h s).pending = s.pending := rfl
@[simp] theorem startEnc_answers (h : Header) (s : State) : (startEnc h s).answers = s.answers := rfl
@[simp] theorem startEnc_freeCount (h : Header) (s : State) : (startEnc h s).freeCount = s.freeCount := rfl

@[simp] theorem emit_dec (bs : List Byte) (s : State) : (emit bs s).dec = s.dec := rfl
@[simp] theorem emit_enc_ecache (bs : List Byte) (s : State) : (emit bs s).enc.ecache = s.enc.ecache := rfl
@[simp] theorem emit_enc_elast (bs : List Byte) (s : State) : (emit bs s).enc.elast = s.enc.elast := rfl
@[simp] theorem emit_enc_erun (bs : List Byte) (s : State) : (emit bs s).enc.erun = s.enc.erun := rfl
@[simp] theorem emit_enc_eidx (bs : List Byte) (s : State) : (emit bs s).enc.eidx = s.enc.eidx := rfl
@[simp] theorem emit_enc_etotal (bs : List Byte) (s : State) : (emit bs s).enc.etotal = s.enc.etotal := rfl
@[simp] theorem emit_enc_ehdr (bs : List Byte) (s : State) : (emit bs s).enc.ehdr = s.enc.ehdr := rfl
@[simp] theorem emit_enc_estatus (bs : List Byte) (s : State) : (emit bs s).enc.estatus = s.enc.estatus := rfl
@[simp] theorem emit_enc_obuf (bs : List Byte) (s : State) : (emit bs s).enc.obuf = Memory.append s.enc.obuf bs := rfl
@[simp] theorem emit_ibuf (bs : List Byte) (s : State) : (emit bs s).ibuf = s.ibuf := rfl
@[simp] theorem emit_pending (bs : List Byte) (s : State) : (emit bs s).pending = s.pending := rfl
@[simp] theorem emit_answers (bs : List Byte) (s : State) : (emit bs s).answers = s.answers := rfl
@[simp] theorem emit_freeCount (bs : List Byte) (s : State) : (emit bs s).freeCount = s.freeCount := rfl

@[simp] theorem setPos_dec_dcache (n : Nat) (s : State) : (setPos n s).dec.dcache = s.dec.dcache := rfl
@[simp] theorem setPos_dec_dlast (n : Nat) (s : State) : (setPos n s).dec.dlast = s.dec.dlast := rfl
@[simp] theorem setPos_dec_drun (n : Nat) (s : State) : (setPos n s).dec.drun = s.dec.drun := rfl
@[simp] theorem setPos_dec_pos (n : Nat) (s : State) : (setPos n s).dec.pos = n := rfl
@[simp] theorem setPos_dec_dhdr (n : Nat) (s : State) : (setPos n s).dec.dhdr = s.dec.dhdr := rfl
@[simp] theorem setPos_dec_dstatus (n : Nat) (s : State) : (setPos n s).dec.dstatus = s.dec.dstatus := rfl
@[simp] theorem setPos_enc (n : Nat) (s : State) : (setPos n s).enc = s.enc := rfl
@[simp] theorem setPos_ibuf (n : Nat) (s : State) : (setPos n s).ibuf = s.ibuf := rfl
@[simp] theorem setPos_pending (n : Nat) (s : State) : (setPos n s).pending = s.pending := rfl
@[simp] theorem setPos_answers (n : Nat) (s : State) : (setPos n s).answers = s.answers := rfl
@[simp] theorem setPos_freeCount (n : Nat) (s : State) : (setPos n s).freeCount = s.freeCount := rfl

@[simp] theorem producePixel_dec_dcache (p : Pixel) (s : State) : (producePixel p s).dec.dcache = cacheStore s.dec.dcache p := rfl
@[simp] theorem producePixel_dec_dlast (p : Pixel) (s : State) : (producePixel p s).dec.dlast = p := rfl
@[simp] theorem producePixel_dec_drun (p : Pixel) (s : State) : (producePixel p s).dec.drun = s.dec.drun := rfl
@[simp] theorem producePixel_dec_pos (p : Pixel) (s : State) : (producePixel p s).dec.pos = s.dec.pos := rfl
@[simp] theorem producePixel_dec_dhdr (p : Pixel) (s : State) : (producePixel p s).dec.dhdr = s.dec.dhdr := rfl
@[simp] theorem producePixel_dec_dstatus (p : Pixel) (s : State) : (producePixel p s).dec.dstatus = s.dec.dstatus := rfl
@[simp] theorem producePixel_enc (p : Pixel) (s : State) : (producePixel p s).enc = s.enc := rfl
@[simp] theorem producePixel_ibuf (p : Pixel) (s : State) : (producePixel p s).ibuf = s.ibuf := rfl
@[simp] theorem producePixel_pending (p : Pixel) (s : State) : (producePixel p s).pending = s.pending := rfl
@[simp] theorem producePixel_answers (p : Pixel) (s : State) : (producePixel p s).answers = s.answers ++ [.pixel p] := rfl
@[simp] theorem producePixel_freeCount (p : Pixel) (s : State) : (producePixel p s).freeCount = s.freeCount := rfl

@[simp] theorem repeatPixel_dec_dcache (n : Byte) (s : State) : (repeatPixel n s).dec.dcache = s.dec.dcache := rfl
@[simp] theorem repeatPixel_dec_dlast (n : Byte) (s : State) : (repeatPixel n s).dec.dlast = s.dec.dlast := rfl
@[simp] theorem repeatPixel_dec_drun (n : Byte) (s : State) : (repeatPixel n s).dec.drun = n := rfl
@[simp] theorem repeatPixel_dec_pos (n : Byte) (s : State) : (repeatPixel n s).dec.pos = s.dec.pos := rfl
@[simp] theorem repeatPixel_dec_dhdr (n : Byte) (s : State) : (repeatPixel n s).dec.dhdr = s.dec.dhdr := rfl
@[simp] theorem repeatPixel_dec_dstatus (n : Byte) (s : State) : (repeatPixel n s).dec.dstatus = s.dec.dstatus := rfl
@[simp] theorem repeatPixel_enc (n : Byte) (s : State) : (repeatPixel n s).enc = s.enc := rfl
@[simp] theorem repeatPixel_ibuf (n : Byte) (s : State) : (repeatPixel n s).ibuf = s.ibuf := rfl
@[simp] theorem repeatPixel_pending (n : Byte) (s : State) : (repeatPixel n s).pending = s.pending := rfl
@[simp] theorem repeatPixel_answers (n : Byte) (s : State) : (repeatPixel n s).answers = s.answers ++ [.pixel s.dec.dlast] := rfl
@[simp] theorem repeatPixel_freeCount (n : Byte) (s : State) : (repeatPixel n s).freeCount = s.freeCount := rfl

@[simp] theorem countPixel_dec (s : State) : (countPixel s).dec = s.dec := rfl
@[simp] theorem countPixel_enc_ecache (s : State) : (countPixel s).enc.ecache = s.enc.ecache := rfl
@[simp] theorem countPixel_enc_elast (s : State) : (countPixel s).enc.elast = s.enc.elast := rfl
@[simp] theorem countPixel_enc_erun (s : State) : (countPixel s).enc.erun = s.enc.erun := rfl
@[simp] theorem countPixel_enc_eidx (s : State) : (countPixel s).enc.eidx = s.enc.eidx + 1 := rfl
@[simp] theorem countPixel_enc_etotal (s : State) : (countPixel s).enc.etotal = s.enc.etotal := rfl
@[simp] theorem countPixel_enc_ehdr (s : State) : (countPixel s).enc.ehdr = s.enc.ehdr := rfl
@[simp] theorem countPixel_enc_estatus (s : State) : (countPixel s).enc.estatus = s.enc.estatus := rfl
@[simp] theorem countPixel_enc_obuf (s : State) : (countPixel s).enc.obuf = s.enc.obuf := rfl
@[simp] theorem countPixel_ibuf (s : State) : (countPixel s).ibuf = s.ibuf := rfl
@[simp] theorem countPixel_pending (s : State) : (countPixel s).pending = s.pending := rfl
@[simp] theorem countPixel_answers (s : State) : (countPixel s).answers = s.answers := rfl
@[simp] theorem countPixel_freeCount (s : State) : (countPixel s).freeCount = s.freeCount := rfl

@[simp] theorem setErun_dec (n : Byte) (s : State) : (setErun n s).dec = s.dec := rfl
@[simp] theorem setErun_enc_ecache (n : Byte) (s : State) : (setErun n s).enc.ecache = s.enc.ecache := rfl
@[simp] theorem setErun_enc_elast (n : Byte) (s : State) : (setErun n s).enc.elast = s.enc.elast := rfl
@[simp] theorem setErun_enc_erun (n : Byte) (s : State) : (setErun n s).enc.erun = n := rfl
@[simp] theorem setErun_enc_eidx (n : Byte) (s : State) : (setErun n s).enc.eidx = s.enc.eidx := rfl
@[simp] theorem setErun_enc_etotal (n : Byte) (s : State) : (setErun n s).enc.etotal = s.enc.etotal := rfl
@[simp] theorem setErun_enc_ehdr (n : Byte) (s : State) : (setErun n s).enc.ehdr = s.enc.ehdr := rfl
@[simp] theorem setErun_enc_estatus (n : Byte) (s : State) : (setErun n s).enc.estatus = s.enc.estatus := rfl
@[simp] theorem setErun_enc_obuf (n : Byte) (s : State) : (setErun n s).enc.obuf = s.enc.obuf := rfl
@[simp] theorem setErun_ibuf (n : Byte) (s : State) : (setErun n s).ibuf = s.ibuf := rfl
@[simp] theorem setErun_pending (n : Byte) (s : State) : (setErun n s).pending = s.pending := rfl
@[simp] theorem setErun_answers (n : Byte) (s : State) : (setErun n s).answers = s.answers := rfl
@[simp] theorem setErun_freeCount (n : Byte) (s : State) : (setErun n s).freeCount = s.freeCount := rfl

@[simp] theorem rememberPixel_dec (p : Pixel) (s : State) : (rememberPixel p s).dec = s.dec := rfl
@[simp] theorem rememberPixel_enc_ecache (p : Pixel) (s : State) : (rememberPixel p s).enc.ecache = s.enc.ecache := rfl
@[simp] theorem rememberPixel_enc_elast (p : Pixel) (s : State) : (rememberPixel p s).enc.elast = p := rfl
@[simp] theorem rememberPixel_enc_erun (p : Pixel) (s : State) : (rememberPixel p s).enc.erun = s.enc.erun := rfl
@[simp] theorem rememberPixel_enc_eidx (p : Pixel) (s : State) : (rememberPixel p s).enc.eidx = s.enc.eidx := rfl
@[simp] theorem rememberPixel_enc_etotal (p : Pixel) (s : State) : (rememberPixel p s).enc.etotal = s.enc.etotal := rfl
@[simp] theorem rememberPixel_enc_ehdr (p : Pixel) (s : State) : (rememberPixel p s).enc.ehdr = s.enc.ehdr := rfl
@[simp] theorem rememberPixel_enc_estatus (p : Pixel) (s : State) : (rememberPixel p s).enc.estatus = s.enc.estatus := rfl
@[simp] theorem rememberPixel_enc_obuf (p : Pixel) (s : State) : (rememberPixel p s).enc.obuf = s.enc.obuf := rfl
@[simp] theorem rememberPixel_ibuf (p : Pixel) (s : State) : (rememberPixel p s).ibuf = s.ibuf := rfl
@[simp] theorem rememberPixel_pending (p : Pixel) (s : State) : (rememberPixel p s).pending = s.pending := rfl
@[simp] theorem rememberPixel_answers (p : Pixel) (s : State) : (rememberPixel p s).answers = s.answers ++ [.complete] := rfl
@[simp] theorem rememberPixel_freeCount (p : Pixel) (s : State) : (rememberPixel p s).freeCount = s.freeCount := rfl

@[simp] theorem storePixel_dec (p : Pixel) (s : State) : (storePixel p s).dec = s.dec := rfl
@[simp] theorem storePixel_enc_ecache (p : Pixel) (s : State) : (storePixel p s).enc.ecache = cacheStore s.enc.ecache p := rfl
@[simp] theorem storePixel_enc_elast (p : Pixel) (s : State) : (storePixel p s).enc.elast = s.enc.elast := rfl
@[simp] theorem storePixel_enc_erun (p : Pixel) (s : State) : (storePixel p s).enc.erun = s.enc.erun := rfl
@[simp] theorem storePixel_enc_eidx (p : Pixel) (s : State) : (storePixel p s).enc.eidx = s.enc.eidx := rfl
@[simp] theorem storePixel_enc_etotal (p : Pixel) (s : State) : (storePixel p s).enc.etotal = s.enc.etotal := rfl
@[simp] theorem storePixel_enc_ehdr (p : Pixel) (s : State) : (storePixel p s).enc.ehdr = s.enc.ehdr := rfl
@[simp] theorem storePixel_enc_estatus (p : Pixel) (s : State) : (storePixel p s).enc.estatus = s.enc.estatus := rfl
@[simp] theorem storePixel_enc_obuf (p : Pixel) (s : State) : (storePixel p s).enc.obuf = s.enc.obuf := rfl
@[simp] theorem storePixel_ibuf (p : Pixel) (s : State) : (storePixel p s).ibuf = s.ibuf := rfl
@[simp] theorem storePixel_pending (p : Pixel) (s : State) : (storePixel p s).pending = s.pending := rfl
@[simp] theorem storePixel_answers (p : Pixel) (s : State) : (storePixel p s).answers = s.answers := rfl
@[simp] theorem storePixel_freeCount (p : Pixel) (s : State) : (storePixel p s).freeCount = s.freeCount := rfl

@[simp] theorem asked_dec (s : State) (ops : List HostOp) : (s.asked ops).dec = s.dec := rfl
@[simp] theorem asked_enc (s : State) (ops : List HostOp) : (s.asked ops).enc = s.enc := rfl
@[simp] theorem asked_ibuf (s : State) (ops : List HostOp) : (s.asked ops).ibuf = s.ibuf := rfl
@[simp] theorem asked_pending (s : State) (ops : List HostOp) : (s.asked ops).pending = ops := rfl
@[simp] theorem asked_answers (s : State) (ops : List HostOp) : (s.asked ops).answers = s.answers := rfl
@[simp] theorem asked_freeCount (s : State) (ops : List HostOp) : (s.asked ops).freeCount = s.freeCount := rfl

end Sys2Proof.Machine
end

