-- ==== Sys2Proof/Laws/Memory.lean ====
section
/-! SUPPORT. The byte spaces: a buffer in canonical form is the list of its bytes, every operation keeps the form, and a read
after an append gives the old byte or the appended one. -/

namespace Sys2Proof.Machine

@[simp] theorem Memory.cellsFrom_length (bs : List Byte) (base : Nat) : (Memory.cellsFrom base bs).length = bs.length := by
  induction bs generalizing base with
  | nil => rfl
  | cons b bs ih => simp [Memory.cellsFrom, ih]

@[simp] theorem Memory.cellsFrom_bytes (bs : List Byte) (base : Nat) : Memory.bytes (Memory.cellsFrom base bs) = bs := by
  unfold Memory.bytes
  induction bs generalizing base with
  | nil => rfl
  | cons b bs ih => simp [Memory.cellsFrom, ih]

theorem Memory.cellsFrom_append (xs ys : List Byte) (base : Nat) :
    Memory.cellsFrom base (xs ++ ys) = Memory.cellsFrom base xs ++ Memory.cellsFrom (base + xs.length) ys := by
  induction xs generalizing base with
  | nil => rfl
  | cons x xs ih => simp [Memory.cellsFrom, ih, Nat.add_assoc, Nat.add_comm 1]

@[simp] theorem Memory.ofBytes_size (bs : List Byte) : Memory.size (Memory.ofBytes bs) = bs.length := by
  simp [Memory.size, Memory.ofBytes]

@[simp] theorem Memory.ofBytes_bytes (bs : List Byte) : Memory.bytes (Memory.ofBytes bs) = bs := Memory.cellsFrom_bytes bs 0

@[simp] theorem Memory.bytes_length (m : Memory) : (Memory.bytes m).length = Memory.size m := by
  simp [Memory.bytes, Memory.size]

@[simp] theorem Memory.ofBytes_wf (bs : List Byte) : Memory.wf (Memory.ofBytes bs) = true := by simp [Memory.wf]

/-- The canonical form, as the equation that proofs rewrite with. -/
theorem Memory.wf_iff (m : Memory) : Memory.wf m = true ↔ m = Memory.ofBytes (Memory.bytes m) := by simp [Memory.wf]

theorem Memory.wf_ofBytes {m : Memory} (h : Memory.wf m = true) : ∃ bs, m = Memory.ofBytes bs := ⟨_, (Memory.wf_iff m).mp h⟩

theorem Memory.append_ofBytes (xs ys : List Byte) : Memory.append (Memory.ofBytes xs) ys = Memory.ofBytes (xs ++ ys) := by
  simp [Memory.append, Memory.ofBytes, Memory.size, Memory.cellsFrom_append]

@[simp] theorem Memory.append_nil (m : Memory) : Memory.append m [] = m := by simp [Memory.append, Memory.cellsFrom]

@[simp] theorem Memory.append_size (m : Memory) (bs : List Byte) :
    Memory.size (Memory.append m bs) = Memory.size m + bs.length := by simp [Memory.append, Memory.size]

@[simp] theorem Memory.append_bytes (m : Memory) (bs : List Byte) :
    Memory.bytes (Memory.append m bs) = Memory.bytes m ++ bs := by
  have h := Memory.cellsFrom_bytes bs (Memory.size m)
  unfold Memory.bytes at h
  simp [Memory.append, Memory.bytes, h]

theorem Memory.append_append (m : Memory) (xs ys : List Byte) :
    Memory.append (Memory.append m xs) ys = Memory.append m (xs ++ ys) := by
  simp [Memory.append, Memory.size, Memory.cellsFrom_append]

/-- Appending keeps the canonical form. -/
theorem Memory.append_wf {m : Memory} (h : Memory.wf m = true) (bs : List Byte) : Memory.wf (Memory.append m bs) = true := by
  obtain ⟨xs, rfl⟩ := Memory.wf_ofBytes h
  simp [Memory.append_ofBytes]

/-- Placing bytes from outside gives a buffer in canonical form. -/
theorem Memory.place_wf (m : Memory) (addr : Nat) (bs : List Byte) : Memory.wf (Memory.place m addr bs) = true := by
  simp [Memory.place]

theorem Memory.nil_wf : Memory.wf [] = true := rfl

theorem Memory.read_cellsFrom (bs : List Byte) (base a : Nat) (h : base ≤ a) :
    Memory.read (Memory.cellsFrom base bs) a = bs[a - base]? := by
  induction bs generalizing base with
  | nil => rfl
  | cons b bs ih =>
    rw [Memory.cellsFrom, Memory.read]
    split
    · subst_vars; simp
    · rename_i hne
      have hlt : base < a := by omega
      rw [ih (base + 1) hlt, show a - base = (a - (base + 1)) + 1 by omega, List.getElem?_cons_succ]

/-- Reading one byte of a canonical buffer. -/
@[simp] theorem Memory.read_ofBytes (bs : List Byte) (a : Nat) : Memory.read (Memory.ofBytes bs) a = bs[a]? := by
  simpa [Memory.ofBytes] using Memory.read_cellsFrom bs 0 a (Nat.zero_le a)

/-- `MemRead` on a canonical buffer, inside its bounds. -/
theorem Memory.readRange_ofBytes (bs : List Byte) (n : Nat) (a : Nat) (h : a + n ≤ bs.length) :
    Memory.readRange (Memory.ofBytes bs) a n = some ((bs.drop a).take n) := by
  induction n generalizing a with
  | zero => simp [Memory.readRange]
  | succ n ih =>
    have ha : a < bs.length := by omega
    rw [Memory.readRange, ih (a + 1) (by omega), Memory.read_ofBytes, List.getElem?_eq_getElem ha]
    rw [List.drop_eq_getElem_cons ha, List.take_succ_cons]

/-- What an append does to every read: the old bytes stay, and the new ones stand at the old length. -/
theorem Memory.append_appended {m : Memory} (h : Memory.wf m = true) (bs : List Byte) :
    Appended bs m (Memory.append m bs) := by
  obtain ⟨xs, rfl⟩ := Memory.wf_ofBytes h
  refine ⟨by simp, fun a ha => ?_, fun k hk => ?_⟩
  · simp only [Memory.ofBytes_size] at ha
    simp [Memory.append_ofBytes, List.getElem?_append_left ha]
  · simp [Memory.append_ofBytes, List.getElem?_append_right]

end Sys2Proof.Machine
end

