-- ==== Sys2Proof/Laws/Parse.lean ====
section
/-! SUPPORT. The cursor and the parser on a canonical buffer: what they answer is a function of the bytes from the cursor
on. `parseView` is that function; proofs cite `parseChunkWith_ofBytes` and never unfold the cursor. -/

namespace Sys2Proof.Machine

/-- `ReadFixed` on a canonical buffer. -/
theorem readFixed_ofBytes (bs : List Byte) (pos n : Nat) :
    readFixed ⟨Memory.ofBytes bs, pos⟩ n =
      if (bs.drop pos).length < n then .short
      else .got ((bs.drop pos).take n) ⟨Memory.ofBytes bs, pos + n⟩ := by
  unfold readFixed
  simp only [Cursor.remaining, Memory.ofBytes_size, List.length_drop]
  split
  · rfl
  · rename_i h
    by_cases hn : n = 0
    · subst hn; simp [Memory.readRange]
    · rw [Memory.readRange_ofBytes bs n pos (by omega)]

/-- `PeekFixed` on a canonical buffer. -/
theorem peekFixed_ofBytes (bs : List Byte) (pos n : Nat) :
    peekFixed ⟨Memory.ofBytes bs, pos⟩ n =
      if (bs.drop pos).length < n then .short
      else .got ((bs.drop pos).take n) ⟨Memory.ofBytes bs, pos⟩ := by
  unfold peekFixed
  simp only [Cursor.remaining, Memory.ofBytes_size, List.length_drop]
  split
  · rfl
  · rename_i h
    by_cases hn : n = 0
    · subst hn; simp [Memory.readRange]
    · rw [Memory.readRange_ofBytes bs n pos (by omega)]

/-- R140 step 5 on the bytes after the tag; `pos` is the position just after the tag. -/
def topBitsView (tag : Byte) (pos : Nat) (rest : List Byte) : Parsed :=
  match bitField tag 7 6 with
  | 0 => .item (.index tag) pos
  | 1 => .item (diffOfTag tag) pos
  | 2 =>
    match rest with
    | byte2 :: _ => .item (lumaOfBytes tag byte2) (pos + 1)
    | [] => .failed .truncated pos
  | _ => .item (runOfTag tag) pos

/-- The parser as a function of the bytes from the cursor on; `pos` is the cursor's position. -/
def parseView (peekFailIsFault : Bool) (pos : Nat) : List Byte → Parsed
  | [] => .failed .endOfInput pos
  | tag :: rest =>
    if tag = 0xFE then
      match rest with
      | r :: g :: b :: _ => .item (.rgb r g b) (pos + 4)
      | _ => .failed .truncated (pos + 1)
    else if tag = 0xFF then
      match rest with
      | r :: g :: b :: a :: _ => .item (.rgba r g b a) (pos + 5)
      | _ => .failed .truncated (pos + 1)
    else if tag = 0x00 then
      if rest.take 7 = Config.endTail then .item .endMarker (pos + 1)
      else if rest.length < 7 ∧ peekFailIsFault = true then .failed .truncated (pos + 1)
      else .item (.index 0) (pos + 1)
    else topBitsView tag (pos + 1) rest

theorem parseRgb_ofBytes (bs : List Byte) (pos : Nat) :
    parseRgb ⟨Memory.ofBytes bs, pos⟩ =
      match bs.drop pos with
      | r :: g :: b :: _ => .item (.rgb r g b) (pos + 3)
      | _ => .failed .truncated pos := by
  rw [parseRgb, readFixed_ofBytes]
  rcases bs.drop pos with _ | ⟨r, _ | ⟨g, _ | ⟨b, rest⟩⟩⟩
  · rfl
  · rfl
  · rfl
  · rw [if_neg (by simp only [List.length_cons]; omega)]; rfl

theorem parseRgba_ofBytes (bs : List Byte) (pos : Nat) :
    parseRgba ⟨Memory.ofBytes bs, pos⟩ =
      match bs.drop pos with
      | r :: g :: b :: a :: _ => .item (.rgba r g b a) (pos + 4)
      | _ => .failed .truncated pos := by
  rw [parseRgba, readFixed_ofBytes]
  rcases bs.drop pos with _ | ⟨r, _ | ⟨g, _ | ⟨b, _ | ⟨a, rest⟩⟩⟩⟩
  · rfl
  · rfl
  · rfl
  · rfl
  · rw [if_neg (by simp only [List.length_cons]; omega)]; rfl

theorem parseLuma_ofBytes (tag : Byte) (bs : List Byte) (pos : Nat) :
    parseLuma tag ⟨Memory.ofBytes bs, pos⟩ =
      match bs.drop pos with
      | byte2 :: _ => .item (lumaOfBytes tag byte2) (pos + 1)
      | [] => .failed .truncated pos := by
  rw [parseLuma, readU8, readFixed_ofBytes]
  rcases bs.drop pos with _ | ⟨b, rest⟩ <;> simp

theorem parseByTopBits_ofBytes (tag : Byte) (bs : List Byte) (pos : Nat) :
    parseByTopBits tag ⟨Memory.ofBytes bs, pos⟩ = topBitsView tag pos (bs.drop pos) := by
  unfold parseByTopBits topBitsView
  generalize bitField tag 7 6 = n
  rcases n with _ | _ | _ | n
  · rfl
  · rfl
  · exact parseLuma_ofBytes tag bs pos
  · rfl

theorem topBitsView_zero (pos : Nat) (rest : List Byte) : topBitsView 0 pos rest = .item (.index 0) pos := rfl

theorem parseZeroTag_ofBytes (k : Bool) (bs : List Byte) (pos : Nat) :
    parseZeroTag k 0 ⟨Memory.ofBytes bs, pos⟩ =
      if (bs.drop pos).take 7 = Config.endTail then .item .endMarker pos
      else if (bs.drop pos).length < 7 ∧ k = true then .failed .truncated pos
      else .item (.index 0) pos := by
  rw [parseZeroTag, peekFixed_ofBytes, parseByTopBits_ofBytes, topBitsView_zero]
  by_cases hlen : (bs.drop pos).length < 7
  · have hne : (bs.drop pos).take 7 ≠ Config.endTail := fun h => by
      have := congrArg List.length h
      simp only [List.length_take, Config.endTail, List.length_cons, List.length_nil] at this
      omega
    rw [if_pos hlen, if_neg hne]
    cases k <;> simp only [hlen, true_and, if_true, Bool.false_eq_true, if_false]
  · rw [if_neg hlen]
    simp only [hlen, false_and, if_false]

/-- The parser on a canonical buffer is its view of the bytes from the cursor on. -/
theorem parseChunkWith_ofBytes (k : Bool) (bs : List Byte) (pos : Nat) :
    parseChunkWith k ⟨Memory.ofBytes bs, pos⟩ = parseView k pos (bs.drop pos) := by
  rw [parseChunkWith, readU8, readFixed_ofBytes]
  simp only [Cursor.remaining, Memory.ofBytes_size]
  rcases hd : bs.drop pos with _ | ⟨tag, rest⟩
  · have hlen := congrArg List.length hd
    simp only [List.length_drop, List.length_nil] at hlen
    simp [hlen, parseView]
  · have hlen := congrArg List.length hd
    simp only [List.length_drop, List.length_cons] at hlen
    have hrest : bs.drop (pos + 1) = rest := by
      rw [← List.drop_drop, hd, List.drop_one, List.tail_cons]
    rw [if_neg (by omega)]
    simp only [List.length_cons, List.take_succ_cons, List.take_zero]
    rw [if_neg (by omega)]
    simp only [parseAfterTag, parseView, parseRgb_ofBytes, parseRgba_ofBytes, parseByTopBits_ofBytes, hrest]
    split
    · rcases rest with _ | ⟨r, _ | ⟨g, _ | ⟨b, rest⟩⟩⟩ <;> rfl
    · split
      · rcases rest with _ | ⟨r, _ | ⟨g, _ | ⟨b, _ | ⟨a, rest⟩⟩⟩⟩ <;> rfl
      · split
        · rename_i htag
          rw [htag, parseZeroTag_ofBytes, hrest]
        · rfl

theorem parseChunk_ofBytes (bs : List Byte) (pos : Nat) :
    parseChunk ⟨Memory.ofBytes bs, pos⟩ = parseView false pos (bs.drop pos) := parseChunkWith_ofBytes false bs pos

theorem decode_eq_view (bs : List Byte) : decode bs = parseView false 0 bs := by
  rw [decode, parseChunk_ofBytes, List.drop_zero]

/-- A parsed tag never sends a read outside a canonical buffer. -/
theorem parseView_ne_outside (k : Bool) (pos : Nat) (bs : List Byte) (a : Nat) : parseView k pos bs ≠ .outside a := by
  rcases bs with _ | ⟨tag, rest⟩
  · simp [parseView]
  · simp only [parseView, topBitsView]
    repeat' split
    all_goals simp

end Sys2Proof.Machine
end

