-- ==== Sys2Proof/Laws/Ops.lean ====
section
/-! SUPPORT. What each shared operation and each unit operation can do, said once; the provers cite these and unfold
nothing. -/

namespace Sys2Proof.Machine

/-! ### Outcomes -/

@[simp] theorem andThen_next (s : State) (k : State → Result) : andThen (.next s) k = k s := rfl
@[simp] theorem andThen_fault (f : Fault) (k : State → Result) : andThen (.fault f) k = .fault f := rfl
@[simp] theorem andThen_refused (r : Refusal) (k : State → Result) : andThen (.refused r) k = .refused r := rfl

/-! ### The tests of the encoder -/

@[simp] theorem isRepeat_iff (e : EncUnit) (p : Pixel) : isRepeat e p = true ↔ p = e.elast := by simp [isRepeat]
@[simp] theorem atTotal_iff (e : EncUnit) : atTotal e = true ↔ e.eidx = e.etotal := by simp [atTotal]
@[simp] theorem runIsPending_iff (e : EncUnit) : runIsPending e = true ↔ 0 < e.erun.toNat := by simp [runIsPending]
@[simp] theorem sameAlpha_iff (e : EncUnit) (p : Pixel) : sameAlpha e p = true ↔ p.a = e.elast.a := by simp [sameAlpha]
@[simp] theorem runIsDue_iff (e : EncUnit) : runIsDue e = true ↔ e.erun.toNat = 62 ∨ e.eidx = e.etotal := by
  have h : e.erun = Config.runMax ↔ e.erun.toNat = 62 := by rw [← BitVec.toNat_inj]; rfl
  simp [runIsDue, h]

/-! ### The pixel cache -/

/-- A store writes the pixel's own slot and no other. -/
theorem cacheStore_get (cache : PixelCache) (p : Pixel) (j : Fin Config.cacheSlots) :
    (cacheStore cache p)[j.val] = if j = pixelHash p then p else cache[j.val] := by
  simp only [cacheStore, Vector.getElem_set, Fin.ext_iff, eq_comm]

/-- A fill gives every slot the same pixel. -/
theorem cacheFill_get (p : Pixel) (j : Fin Config.cacheSlots) : (cacheFill p)[j.val] = p := by
  simp [cacheFill]

/-- A fetch answers the slot's content for the indexes a chunk can hold, and nothing above. -/
theorem cacheFetch_eq (cache : PixelCache) (idx : Byte) :
    cacheFetch cache idx = if h : idx.toNat < Config.cacheSlots then some cache[idx.toNat] else none := by
  unfold cacheFetch
  split
  · exact Vector.getElem?_eq_getElem ‹_›
  · exact Vector.getElem?_eq_none (by omega)

/-- A store keeps every slot in place. -/
theorem SlotsInPlace.store {fill : Pixel} {cache : PixelCache} (h : SlotsInPlace fill cache) (p : Pixel) :
    SlotsInPlace fill (cacheStore cache p) := fun j => by
  rw [cacheStore_get]
  split
  · rename_i hj; exact .inr hj.symm
  · exact h j

theorem SlotsInPlace.fill (p : Pixel) : SlotsInPlace p (cacheFill p) := fun j => .inl (cacheFill_get p j)

/-! ### Chunks -/

theorem ifWellFormed_true {i : Instr} (h : i.wellFormed = true) (t : State) : ifWellFormed i t = .next t := by
  simp [ifWellFormed, h]

theorem ifWellFormed_false {i : Instr} (h : i.wellFormed = false) (t : State) :
    ifWellFormed i t = .refused (.illFormedChunk i) := by simp [ifWellFormed, h]

theorem serChunk_wf {i : Instr} (h : i.wellFormed = true) : serChunk i = some (encode i) := by simp [serChunk, h]

theorem serChunk_some {i : Instr} {bs : List Byte} (h : serChunk i = some bs) : i.wellFormed = true ∧ bs = encode i := by
  unfold serChunk at h
  split at h
  · exact ⟨‹_›, (Option.some.inj h).symm⟩
  · cases h

theorem emitChunk_wf {i : Instr} (h : i.wellFormed = true) (s : State) : emitChunk i s = .next (emit (encode i) s) := by
  simp [emitChunk, serChunk_wf h]

/-- The only way an item's meaning ends without a next state: a field out of range. -/
theorem exec_illFormed {i : Instr} (h : i.wellFormed = false) (s : State) : exec i s = .refused (.illFormedChunk i) := by
  cases i with
  | rgb | rgba | endMarker => simp [Instr.wellFormed] at h
  | index idx =>
    have hidx : ¬ idx.toNat < Config.cacheSlots := by
      simp only [Instr.wellFormed, decide_eq_false_iff_not] at h; simp only [Config.cacheSlots]; omega
    simp [exec, execIndex, cacheFetch_eq, hidx]
  | diff => exact ifWellFormed_false h _
  | luma => exact ifWellFormed_false h _
  | run => exact ifWellFormed_false h _

/-- Everything a meaning can do when it gives a next state: the common update with some pixel, a run, or the end. -/
theorem exec_next_cases {i : Instr} {s t : State} (h : exec i s = .next t) :
    (i ≠ .endMarker ∧ (∀ n, i ≠ .run n) ∧ ∃ p, t = producePixel p s) ∨
    (∃ n, i = .run n ∧ (Instr.run n).wellFormed = true ∧ t = repeatPixel (n - 1) s) ∨
    (i = .endMarker ∧ t = answer .done (setStatus .dec .done s)) := by
  cases i with
  | rgb | rgba => cases h; exact .inl ⟨by simp, by simp, _, rfl⟩
  | endMarker => cases h; exact .inr (.inr ⟨rfl, rfl⟩)
  | index idx =>
    simp only [exec, execIndex] at h
    split at h
    · cases h; exact .inl ⟨by simp, by simp, _, rfl⟩
    · cases h
  | diff dr dg db =>
    simp only [exec, execDiff, ifWellFormed] at h
    split at h
    · cases h; exact .inl ⟨by simp, by simp, _, rfl⟩
    · cases h
  | luma dg drDg dbDg =>
    simp only [exec, execLuma, ifWellFormed] at h
    split at h
    · cases h; exact .inl ⟨by simp, by simp, _, rfl⟩
    · cases h
  | run n =>
    simp only [exec, execRun, ifWellFormed] at h
    split at h
    · cases h; exact .inr (.inl ⟨n, rfl, ‹_›, rfl⟩)
    · cases h

/-- A well-formed item always has its next state. -/
theorem exec_wf_next {i : Instr} (h : i.wellFormed = true) (s : State) : ∃ t, exec i s = .next t := by
  cases i with
  | rgb | rgba | endMarker => exact ⟨_, rfl⟩
  | index idx =>
    have hidx : idx.toNat < Config.cacheSlots := by
      simp only [Instr.wellFormed, decide_eq_true_eq] at h; simp only [Config.cacheSlots]; omega
    exact ⟨producePixel s.dec.dcache[idx.toNat] s, by simp [exec, execIndex, cacheFetch_eq, hidx]⟩
  | diff => exact ⟨_, ifWellFormed_true h _⟩
  | luma => exact ⟨_, ifWellFormed_true h _⟩
  | run => exact ⟨_, ifWellFormed_true h _⟩

/-! ### DEC_START -/

/-- Everything DEC_START can do, by the length and the first bytes of the input. -/
theorem decStart_eq (input : List Byte) (s : State) :
    decStart input s =
      if input.length < 4 then failDecStart .truncated 0 (startDec input s)
      else if input.take 4 ≠ Config.magic then failDecStart .invalidMagic 4 (startDec input s)
      else
        match parseHeader ((input.drop 4).take 10) with
        | some h => openDecSession h 14 (startDec input s)
        | none => failDecStart .truncated 4 (startDec input s) := by
  have hcur : cursorOf (startDec input s) = ⟨Memory.ofBytes input, 0⟩ := rfl
  rw [decStart, readFraming, hcur, readFixed_ofBytes, List.drop_zero]
  by_cases h4 : input.length < 4
  · simp [h4]
  · rw [if_neg h4, if_neg h4]
    by_cases hm : input.take 4 = Config.magic
    · simp only [hm, if_true, ne_eq, not_true_eq_false, if_false, Nat.zero_add]
      rw [readHeaderRecord, readFixed_ofBytes]
      by_cases h10 : (input.drop 4).length < 10
      · have hnone : parseHeader ((input.drop 4).take 10) = none := by
          rw [List.take_of_length_le (by omega)]
          generalize input.drop 4 = l at h10
          rcases l with _ | ⟨_, _ | ⟨_, _ | ⟨_, _ | ⟨_, _ | ⟨_, _ | ⟨_, _ | ⟨_, _ | ⟨_, _ | ⟨_, _ | ⟨_, l⟩⟩⟩⟩⟩⟩⟩⟩⟩⟩ <;>
            first
            | rfl
            | (exfalso; simp only [List.length_cons] at h10; omega)
        rw [hnone]
        simp only [Config.hdrBytes, h10, if_true]
      · simp only [Config.hdrBytes, h10, if_false]
        have hlen : ((input.drop 4).take 10).length = 10 := by rw [List.length_take]; omega
        generalize (input.drop 4).take 10 = l at hlen
        rcases l with _ | ⟨_, _ | ⟨_, _ | ⟨_, _ | ⟨_, _ | ⟨_, _ | ⟨_, _ | ⟨_, _ | ⟨_, _ | ⟨_, _ | ⟨_, _ | ⟨_, l⟩⟩⟩⟩⟩⟩⟩⟩⟩⟩⟩ <;>
          first
          | rfl
          | (exfalso; simp only [List.length_cons, List.length_nil] at hlen; omega)
    · simp [hm]

/-! ### ENC_PIXEL -/

/-- A run counter of 1 to 62 is written as one Run chunk and cleared. -/
theorem flushRun_eq {s : State} (h1 : 1 ≤ s.enc.erun.toNat) (h2 : s.enc.erun.toNat ≤ 62) :
    flushRun s = .next (setErun 0 (emit [0xC0 + (s.enc.erun - 1)] s)) := by
  have hwf : (Instr.run s.enc.erun).wellFormed = true := by simp [Instr.wellFormed, h1, h2]
  rw [flushRun, emitChunk_wf hwf]; rfl

/-- The deltas of step 6 always give a well-formed chunk (R220). -/
theorem deltaChunk_wf (last p : Pixel) : (deltaChunk last p).wellFormed = true := by
  unfold deltaChunk
  simp only
  split
  · rename_i h; exact h
  · split
    · rename_i h; exact h
    · rfl

theorem missChunk_wf (e : EncUnit) (p : Pixel) : (missChunk e p).wellFormed = true := by
  unfold missChunk
  split
  · exact deltaChunk_wf _ _
  · rfl

theorem indexChunk_wf (j : Fin Config.cacheSlots) : (Instr.index (BitVec.ofNat 8 j.val)).wellFormed = true := by
  have := j.isLt
  simp only [Config.cacheSlots] at this
  simp only [Instr.wellFormed, BitVec.toNat_ofNat, decide_eq_true_eq]
  omega

/-- Steps 4 to 8 on a cache hit. -/
theorem encodeNew_hit {p : Pixel} {s : State} (h : s.enc.ecache[(pixelHash p).val] = p) :
    encodeNew p s = .next (rememberPixel p (emit [BitVec.ofNat 8 (pixelHash p).val] s)) := by
  simp only [encodeNew, cacheProbe, h, decide_true, if_true, emitChunk_wf (indexChunk_wf _), andThen_next]
  rfl

/-- Steps 4 to 8 on a cache miss. -/
theorem encodeNew_miss {p : Pixel} {s : State} (h : s.enc.ecache[(pixelHash p).val] ≠ p) :
    encodeNew p s = .next (rememberPixel p (emit (encode (missChunk s.enc p)) (storePixel p s))) := by
  simp only [encodeNew, cacheProbe, h, decide_false, Bool.false_eq_true, if_false, emitChunk_wf (missChunk_wf _ _),
    andThen_next]

/-- Step 3: the state after the flush of a pending run, if there is one. -/
def afterFlush (s : State) : State :=
  if 0 < s.enc.erun.toNat then setErun 0 (emit [0xC0 + (s.enc.erun - 1)] s) else s

/-- Steps 3 to 8: the flush, then the new pixel. -/
theorem encodeDiffering_eq {p : Pixel} {s : State} (h : s.enc.erun.toNat ≤ 61) :
    encodeDiffering p s = encodeNew p (afterFlush s) := by
  unfold encodeDiffering afterFlush
  simp only [runIsPending_iff]
  split
  · rename_i h0
    rw [flushRun_eq h0 (by omega), andThen_next]
  · rfl

theorem afterFlush_elast (s : State) : (afterFlush s).enc.elast = s.enc.elast := by unfold afterFlush; split <;> rfl
theorem afterFlush_ecache (s : State) : (afterFlush s).enc.ecache = s.enc.ecache := by unfold afterFlush; split <;> rfl
theorem afterFlush_eidx (s : State) : (afterFlush s).enc.eidx = s.enc.eidx := by unfold afterFlush; split <;> rfl
theorem afterFlush_etotal (s : State) : (afterFlush s).enc.etotal = s.enc.etotal := by unfold afterFlush; split <;> rfl
theorem afterFlush_ehdr (s : State) : (afterFlush s).enc.ehdr = s.enc.ehdr := by unfold afterFlush; split <;> rfl
theorem afterFlush_estatus (s : State) : (afterFlush s).enc.estatus = s.enc.estatus := by unfold afterFlush; split <;> rfl
theorem afterFlush_dec (s : State) : (afterFlush s).dec = s.dec := by unfold afterFlush; split <;> rfl
theorem afterFlush_ibuf (s : State) : (afterFlush s).ibuf = s.ibuf := by unfold afterFlush; split <;> rfl
theorem afterFlush_pending (s : State) : (afterFlush s).pending = s.pending := by unfold afterFlush; split <;> rfl
theorem afterFlush_freeCount (s : State) : (afterFlush s).freeCount = s.freeCount := by unfold afterFlush; split <;> rfl
theorem afterFlush_answers (s : State) : (afterFlush s).answers = s.answers := by unfold afterFlush; split <;> rfl

theorem afterFlush_erun (s : State) : (afterFlush s).enc.erun = 0 := by
  unfold afterFlush
  split
  · rfl
  · rename_i h; exact BitVec.eq_of_toNat_eq (by simpa using h)

theorem afterFlush_obuf (s : State) :
    (afterFlush s).enc.obuf = Memory.append s.enc.obuf (pendingRunBytes s.enc.erun) := by
  unfold afterFlush pendingRunBytes
  by_cases h : s.enc.erun = 0
  · have h0 : ¬ 0 < s.enc.erun.toNat := by rw [h]; decide
    rw [if_neg h0, if_pos h, Memory.append_nil]
  · have h0 : 0 < s.enc.erun.toNat := by
      rcases Nat.eq_zero_or_pos s.enc.erun.toNat with hz | hp
      · exact absurd (BitVec.eq_of_toNat_eq (by simpa using hz)) h
      · exact hp
    rw [if_pos h0, if_neg h, setErun_enc_obuf, emit_enc_obuf]

/-- Step 2, with what it emits. -/
theorem encodeRepeat_eq {p : Pixel} {s : State} (h : s.enc.erun.toNat ≤ 61) :
    encodeRepeat p s =
      if s.enc.erun.toNat + 1 = 62 ∨ s.enc.eidx = s.enc.etotal then
        .next (rememberPixel p (setErun 0 (emit [0xC0 + s.enc.erun] (setErun (s.enc.erun + 1) s))))
      else .next (rememberPixel p (setErun (s.enc.erun + 1) s)) := by
  have htn : (s.enc.erun + 1).toNat = s.enc.erun.toNat + 1 := by
    have h1 : (1 : Byte).toNat = 1 := rfl
    rw [BitVec.toNat_add, h1]; omega
  have hsub : s.enc.erun + 1 - 1 = s.enc.erun := BitVec.add_sub_cancel _ _
  have hflush : flushRun (setErun (s.enc.erun + 1) s) =
      .next (setErun 0 (emit [0xC0 + s.enc.erun] (setErun (s.enc.erun + 1) s))) := by
    have := @flushRun_eq (setErun (s.enc.erun + 1) s) (by rw [setErun_enc_erun]; omega)
      (by rw [setErun_enc_erun]; omega)
    rwa [setErun_enc_erun, hsub] at this
  simp only [encodeRepeat, runIsDue_iff, setErun_enc_erun, setErun_enc_eidx, setErun_enc_etotal, htn]
  split
  · rw [hflush, andThen_next]
  · rfl

/-- An ENC_PIXEL that is accepted: `process_pixel` after the count. -/
theorem encPixel_accepted {p : Pixel} {s : State} (ha : s.enc.estatus = .active) (hn : s.enc.eidx ≠ s.enc.etotal) :
    encPixel p s =
      if p = s.enc.elast then encodeRepeat p (countPixel s) else encodeDiffering p (countPixel s) := by
  simp only [encPixel, ha, atTotal_iff, hn, if_false, encodePixel, isRepeat_iff, countPixel_enc_elast]

/-! ### Steps -/

theorem step_asked (op : HostOp) (rest : List HostOp) (s : State) : step (s.asked (op :: rest)) = runOp op (s.asked rest) := rfl

@[simp] theorem run_zero (s : State) : Sys2Proof.core.run 0 s = .next s := Host.Core.run.eq_1 _ _

theorem run_succ (n : Nat) (s : State) :
    Sys2Proof.core.run (n + 1) s = andThen (step s) (Sys2Proof.core.run n) := by
  refine (Host.Core.run.eq_2 Sys2Proof.core s n).trans ?_
  have h : andThen (step s) (Sys2Proof.core.run n) = andThen (Sys2Proof.core.step s) (Sys2Proof.core.run n) := rfl
  rw [h]
  cases Sys2Proof.core.step s <;> rfl

end Sys2Proof.Machine
end

