-- ==== Sys2Proof/Laws/PerInstr.lean ====
section
/-! SUPPORT. Laws about every instruction as syntax, one lemma per constructor: the length of its encoding (spec R94), the
selector bits of its first byte (R94, R103), and the ranges of what the parser reads (R149). -/

namespace Sys2Proof.Laws

open Sys2Proof.Machine

/-- `wrap8` of a number that is a byte already. -/
theorem wrap8_toNat {n : Int} (h0 : 0 ≤ n) (h1 : n < 256) : ((wrap8 n).toNat : Int) = n := by
  rw [wrap8, BitVec.toNat_ofInt]
  omega

/-- R94: the encoding of a well-formed item has the length of its row. -/
def EncodeLength.Statement (i : Instr) : Prop :=
  i.wellFormed = true → ∃ bs, serChunk i = some bs ∧ bs.length = i.totalBytes

theorem EncodeLength.rgb (r g b : Byte) : EncodeLength.Statement (.rgb r g b) := fun h => ⟨_, serChunk_wf h, rfl⟩
theorem EncodeLength.rgba (r g b a : Byte) : EncodeLength.Statement (.rgba r g b a) := fun h => ⟨_, serChunk_wf h, rfl⟩
theorem EncodeLength.endMarker : EncodeLength.Statement .endMarker := fun h => ⟨_, serChunk_wf h, rfl⟩
theorem EncodeLength.index (idx : Byte) : EncodeLength.Statement (.index idx) := fun h => ⟨_, serChunk_wf h, rfl⟩
theorem EncodeLength.diff (dr dg db : Int) : EncodeLength.Statement (.diff dr dg db) := fun h => ⟨_, serChunk_wf h, rfl⟩
theorem EncodeLength.luma (dg drDg dbDg : Int) : EncodeLength.Statement (.luma dg drDg dbDg) :=
  fun h => ⟨_, serChunk_wf h, rfl⟩
theorem EncodeLength.run (length : Byte) : EncodeLength.Statement (.run length) := fun h => ⟨_, serChunk_wf h, rfl⟩

/-- R94, R102: which first bytes an item's encoding may have. -/
def tagFits (i : Instr) (tag : Byte) : Prop :=
  match i with
  | .rgb _ _ _ => tag = 0xFE
  | .rgba _ _ _ _ => tag = 0xFF
  | .endMarker => tag = 0
  | .index _ => bitField tag 7 6 = 0
  | .diff _ _ _ => bitField tag 7 6 = 1
  | .luma _ _ _ => bitField tag 7 6 = 2
  | .run _ => bitField tag 7 6 = 3 ∧ tag ≠ 0xFE ∧ tag ≠ 0xFF

/-- R94, R103: the first byte of a well-formed item's encoding carries the selector of its row, so no two rows meet. -/
def EncodeTag.Statement (i : Instr) : Prop :=
  i.wellFormed = true → ∃ tag rest, encode i = tag :: rest ∧ tagFits i tag

theorem EncodeTag.rgb (r g b : Byte) : EncodeTag.Statement (.rgb r g b) := fun _ => ⟨_, _, rfl, rfl⟩
theorem EncodeTag.rgba (r g b a : Byte) : EncodeTag.Statement (.rgba r g b a) := fun _ => ⟨_, _, rfl, rfl⟩
theorem EncodeTag.endMarker : EncodeTag.Statement .endMarker := fun _ => ⟨_, _, rfl, rfl⟩

theorem EncodeTag.index (idx : Byte) : EncodeTag.Statement (.index idx) := fun h => by
  refine ⟨idx, [], rfl, ?_⟩
  simp only [Instr.wellFormed, decide_eq_true_eq] at h
  show idx.toNat / 2 ^ 6 % 2 ^ (7 - 6 + 1) = 0
  omega

/-- The range checks of a Diff. -/
theorem diff_ranges {dr dg db : Int} (h : (Instr.diff dr dg db).wellFormed = true) :
    (-2 ≤ dr ∧ dr ≤ 1) ∧ (-2 ≤ dg ∧ dg ≤ 1) ∧ (-2 ≤ db ∧ db ≤ 1) := by
  simp only [Instr.wellFormed, inRange, Bool.and_eq_true, decide_eq_true_eq] at h
  exact ⟨h.1.1, h.1.2, h.2⟩

/-- The range checks of a Luma. -/
theorem luma_ranges {dg drDg dbDg : Int} (h : (Instr.luma dg drDg dbDg).wellFormed = true) :
    (-32 ≤ dg ∧ dg ≤ 31) ∧ (-8 ≤ drDg ∧ drDg ≤ 7) ∧ (-8 ≤ dbDg ∧ dbDg ≤ 7) := by
  simp only [Instr.wellFormed, inRange, Bool.and_eq_true, decide_eq_true_eq] at h
  exact ⟨h.1.1, h.1.2, h.2⟩

/-- The range check of a Run. -/
theorem run_range {length : Byte} (h : (Instr.run length).wellFormed = true) :
    1 ≤ length.toNat ∧ length.toNat ≤ 62 := by
  simpa only [Instr.wellFormed, Bool.and_eq_true, decide_eq_true_eq] using h

/-- The byte of a Run chunk, as a number. -/
theorem runByte_toNat {length : Byte} (h1 : 1 ≤ length.toNat) (h2 : length.toNat ≤ 62) :
    ((0xC0 : Byte) + (length - 1)).toNat = 0xBF + length.toNat := by
  have h : (0xC0 : Byte) + (length - 1) = BitVec.ofNat 8 (0xBF + length.toNat) := by
    apply BitVec.eq_of_toNat_eq
    have ha : (0xC0 : Byte).toNat = 0xC0 := rfl
    have hb : (1 : Byte).toNat = 1 := rfl
    rw [BitVec.toNat_add, BitVec.toNat_sub, BitVec.toNat_ofNat, ha, hb]
    omega
  rw [h, BitVec.toNat_ofNat]
  omega

theorem EncodeTag.diff (dr dg db : Int) : EncodeTag.Statement (.diff dr dg db) := fun h => by
  obtain ⟨⟨_, _⟩, ⟨_, _⟩, _, _⟩ := diff_ranges h
  refine ⟨_, [], rfl, ?_⟩
  have hw := wrap8_toNat (n := 0x40 + (dr + 2) * 16 + (dg + 2) * 4 + (db + 2)) (by omega) (by omega)
  show (wrap8 _).toNat / 2 ^ 6 % 2 ^ (7 - 6 + 1) = 1
  omega

theorem EncodeTag.luma (dg drDg dbDg : Int) : EncodeTag.Statement (.luma dg drDg dbDg) := fun h => by
  obtain ⟨⟨_, _⟩, _, _⟩ := luma_ranges h
  refine ⟨_, _, rfl, ?_⟩
  have hw := wrap8_toNat (n := 0x80 + (dg + 32)) (by omega) (by omega)
  show (wrap8 _).toNat / 2 ^ 6 % 2 ^ (7 - 6 + 1) = 2
  omega

theorem EncodeTag.run (length : Byte) : EncodeTag.Statement (.run length) := fun h => by
  obtain ⟨h1, h2⟩ := run_range h
  refine ⟨_, [], rfl, ?_, ?_, ?_⟩
  · show ((0xC0 : Byte) + (length - 1)).toNat / 2 ^ 6 % 2 ^ (7 - 6 + 1) = 3
    rw [runByte_toNat h1 h2]; omega
  · intro he
    have := runByte_toNat h1 h2
    rw [he] at this
    have hfe : (0xFE : Byte).toNat = 0xFE := rfl
    omega
  · intro he
    have := runByte_toNat h1 h2
    rw [he] at this
    have hff : (0xFF : Byte).toNat = 0xFF := rfl
    omega

end Sys2Proof.Laws
end

