-- ==== Sys2Proof/Tests/Slice0.lean ====
section
/-! SUPPORT. The model's own tests. Expected results are the spec's: the vectors of 95_test_vectors.md and the worked examples
of the rules, whose rule each test names. At the end, the witnesses: for each statement with hypotheses, values that meet
them together. -/

namespace Sys2Proof.Tests

open Sys2Proof.Machine

/-! ### Helpers -/

/-- What `f` sees of an outcome's next state. -/
def seen {α : Type} (r : Result) (f : State → α) : Option α :=
  match r with
  | .next t => some (f t)
  | .fault _ => none
  | .refused _ => none

/-- A decoder in mid-session: the bytes from the cursor on, and the last pixel; DEC_NEXT is asked for. -/
def decWith (bytes : List Byte) (last : Pixel) : State :=
  { State.reset with
    ibuf := Memory.ofBytes bytes
    dec := { DecUnit.reset with dstatus := .active, dlast := last }
    pending := [.decNext] }

/-- An encoder in mid-session with an empty output, and a pixel offered. -/
def encWith (last : Pixel) (erun : Byte) (eidx etotal : Nat) (p : Pixel) : State :=
  { State.reset with
    enc := { EncUnit.reset with estatus := .active, elast := last, erun := erun, eidx := eidx, etotal := etotal }
    pending := [.encPixel p] }

/-- The bytes of the output and the run counter. -/
def outAndRun (t : State) : List Byte × Byte := (Memory.bytes t.enc.obuf, t.enc.erun)

/-- The last pixel, the run counter, the position and the answers of the decoder. -/
def decView (t : State) : Pixel × Byte × Nat × List Answer := (t.dec.dlast, t.dec.drun, t.dec.pos, t.answers)

/-! ### Well-formedness: each check refuses an ill-formed term (R94, R150) -/

theorem test_index_range : (Instr.index 63).wellFormed = true ∧ (Instr.index 64).wellFormed = false := by decide

theorem test_diff_ranges :
    (Instr.diff (-2) 1 0).wellFormed = true ∧ (Instr.diff 2 0 0).wellFormed = false ∧
    (Instr.diff 0 (-3) 0).wellFormed = false ∧ (Instr.diff 0 0 2).wellFormed = false := by decide

theorem test_luma_ranges :
    (Instr.luma (-32) 7 (-8)).wellFormed = true ∧ (Instr.luma 32 0 0).wellFormed = false ∧
    (Instr.luma 0 8 0).wellFormed = false ∧ (Instr.luma 0 0 (-9)).wellFormed = false := by decide

theorem test_run_range :
    (Instr.run 1).wellFormed = true ∧ (Instr.run 62).wellFormed = true ∧ (Instr.run 0).wellFormed = false ∧
    (Instr.run 63).wellFormed = false := by decide

theorem test_serChunk_refuses_out_of_range :
    serChunk (.run 0) = none ∧ serChunk (.run 63) = none ∧ serChunk (.diff 2 0 0) = none ∧
    serChunk (.index 64) = none := by decide

/-! ### Decoding: words written out from R96 to R102 -/

theorem test_decode_rgb : decode [0b11111110, 10, 20, 30] = .item (.rgb 10 20 30) 4 := by decide
theorem test_decode_rgba : decode [0b11111111, 10, 10, 10, 254] = .item (.rgba 10 10 10 254) 5 := by decide
theorem test_decode_end : decode [0, 0, 0, 0, 0, 0, 0, 1, 0xFE] = .item .endMarker 1 := by decide
theorem test_decode_index : decode [0b00_110101] = .item (.index 53) 1 := by decide
theorem test_decode_diff : decode [0b01_00_11_10] = .item (.diff (-2) 1 0) 1 := by decide
theorem test_decode_luma : decode [0b10_101010, 0b1001_1011] = .item (.luma 10 1 3) 2 := by decide
theorem test_decode_run : decode [0b11_100101] = .item (.run 38) 1 := by decide

/-- 2.2 of the vectors: the ends of each tag range of R103. -/
theorem test_decode_range_ends :
    decode [0x01] = .item (.index 1) 1 ∧ decode [0x3F] = .item (.index 63) 1 ∧
    decode [0x40] = .item (.diff (-2) (-2) (-2)) 1 ∧ decode [0x7F] = .item (.diff 1 1 1) 1 ∧
    decode [0x80, 0x00] = .item (.luma (-32) (-8) (-8)) 2 ∧ decode [0xBF, 0xFF] = .item (.luma 31 7 7) 2 ∧
    decode [0xC0] = .item (.run 1) 1 ∧ decode [0xFD] = .item (.run 62) 1 ∧
    decode [0xFE, 255, 255, 255] = .item (.rgb 255 255 255) 4 ∧
    decode [0xFF, 0, 0, 0, 0] = .item (.rgba 0 0 0 0) 5 := by decide

/-- 2.2 of the vectors: the faults of `ParseChunk`, and a 0x00 tag without the whole marker after it. -/
theorem test_decode_faults :
    decode [] = .failed .endOfInput 0 ∧ decode [0xFE, 1, 2] = .failed .truncated 1 ∧
    decode [0xFF, 1, 2, 3] = .failed .truncated 1 ∧ decode [0x80] = .failed .truncated 1 ∧
    decode [0, 0, 0, 0, 0, 0, 0] = .item (.index 0) 1 ∧ decode [0, 0, 0, 0, 0, 0, 0, 0] = .item (.index 0) 1 := by
  decide

/-- The table's bit numbers: the first byte is the low one. -/
theorem test_decodeTableWord :
    decodeTableWord 32 0x1E140AFE = some (.rgb 10 20 30) ∧ decodeTableWord 16 0x9BAA = some (.luma 10 1 3) ∧
    decodeTableWord 64 0x0100000000000000 = some .endMarker ∧ decodeTableWord 8 0 = some (.index 0) := by decide

/-- 2.2 of the vectors, read the other way. -/
theorem test_serChunk :
    serChunk (.diff 1 (-1) 0) = some [0x76] ∧ serChunk (.luma 0 (-3) 0) = some [0xA0, 0x58] ∧
    serChunk (.run 61) = some [0xFC] ∧ serChunk (.rgb 0 0 0) = some [0xFE, 0, 0, 0] ∧
    serChunk .endMarker = some [0, 0, 0, 0, 0, 0, 0, 1] := by decide

/-! ### The hash (2.1 of the vectors) -/

theorem test_hash :
    (pixelHash ⟨0, 0, 0, 255⟩).val = 53 ∧ (pixelHash ⟨86, 0, 0, 0⟩).val = 2 ∧
    (pixelHash ⟨200, 100, 50, 25⟩).val = 61 ∧ (pixelHash ⟨5, 4, 7, 255⟩).val = 9 := by decide

/-! ### The decoder, one chunk a step (2.3 of the vectors) -/

theorem test_step_rgb :
    seen (step (decWith [0xFE, 0x0A, 0x14, 0x1E] ⟨1, 2, 3, 128⟩)) decView =
      some (⟨10, 20, 30, 128⟩, 0, 4, [.pixel ⟨10, 20, 30, 128⟩]) := by decide

theorem test_step_rgb_stores :
    seen (step (decWith [0xFE, 0x0A, 0x14, 0x1E] ⟨1, 2, 3, 128⟩)) (fun t => (t.dec.dcache[20], t.dec.dcache[21])) =
      some (⟨10, 20, 30, 128⟩, ⟨0, 0, 0, 255⟩) := by decide

theorem test_step_rgba :
    seen (step (decWith [0xFF, 10, 10, 10, 254] ⟨0, 0, 0, 255⟩)) (fun t => (decView t, t.dec.dcache[0])) =
      some ((⟨10, 10, 10, 254⟩, 0, 5, [.pixel ⟨10, 10, 10, 254⟩]), ⟨10, 10, 10, 254⟩) := by decide

/-- An Index of a slot never stored into yields its fill, and that is stored in slot 53 (R175). -/
theorem test_step_index_stores_in_its_own_slot :
    seen
      (step { decWith [0x05] ⟨9, 9, 9, 9⟩ with
        dec := { (decWith [0x05] ⟨9, 9, 9, 9⟩).dec with dcache := (cacheFill ⟨0, 0, 0, 255⟩).set 53 ⟨1, 1, 1, 1⟩ } })
      (fun t => (t.dec.dlast, t.dec.dcache[53])) = some (⟨0, 0, 0, 255⟩, ⟨0, 0, 0, 255⟩) := by decide

theorem test_step_diff_wraps :
    seen (step (decWith [0x76] ⟨255, 0, 128, 7⟩)) decView =
      some (⟨0, 255, 128, 7⟩, 0, 1, [.pixel ⟨0, 255, 128, 7⟩]) := by decide

theorem test_step_luma_wraps_up :
    seen (step (decWith [0xAA, 0x9B] ⟨250, 250, 250, 255⟩)) decView =
      some (⟨5, 4, 7, 255⟩, 0, 2, [.pixel ⟨5, 4, 7, 255⟩]) := by decide

theorem test_step_luma_wraps_down :
    seen (step (decWith [0x80, 0x00] ⟨10, 10, 10, 255⟩)) (fun t => t.dec.dlast) = some ⟨226, 234, 226, 255⟩ := by decide

theorem test_step_run :
    seen (step (decWith [0xC2] ⟨9, 9, 9, 255⟩)) (fun t => (decView t, t.dec.dcache[60])) =
      some ((⟨9, 9, 9, 255⟩, 2, 1, [.pixel ⟨9, 9, 9, 255⟩]), ⟨0, 0, 0, 255⟩) := by decide

theorem test_step_end :
    seen (step (decWith [0, 0, 0, 0, 0, 0, 0, 1] ⟨9, 9, 9, 255⟩)) (fun t => (t.dec.dstatus, decView t)) =
      some (.done, (⟨9, 9, 9, 255⟩, 0, 1, [.done])) := by decide

theorem test_step_end_cut_short_is_index_0 :
    seen (step (decWith [0, 0, 0] ⟨9, 9, 9, 255⟩)) (fun t => (t.dec.dstatus, decView t)) =
      some (.active, (⟨0, 0, 0, 255⟩, 0, 1, [.pixel ⟨0, 0, 0, 255⟩])) := by decide

/-- 2.2 of the vectors: a short payload leaves the cursor just after the tag, and nothing else changes (R257). -/
theorem test_step_truncated :
    seen (step (decWith [0xFE, 1, 2] ⟨9, 9, 9, 255⟩)) (fun t => (t.dec.dstatus, decView t)) =
      some (.fault .truncated, (⟨9, 9, 9, 255⟩, 0, 1, [.failed .truncated])) := by decide

/-! ### DEC_START (2.7 of the vectors) -/

/-- The status, the position and the answers after DEC_START on `bytes`. -/
def started (bytes : List Byte) : Option (Status × Nat × List Answer) :=
  seen (runOp (.decStart bytes) State.reset) (fun t => (t.dec.dstatus, t.dec.pos, t.answers))

theorem test_decStart_short : started [0x71, 0x6F, 0x69] = some (.fault .truncated, 0, [.failed .truncated]) := by decide

theorem test_decStart_wrong_magic :
    started [0x71, 0x6F, 0x69, 0x67, 0, 0, 0] = some (.fault .invalidMagic, 4, [.failed .invalidMagic]) := by decide

theorem test_decStart_short_record :
    started [0x71, 0x6F, 0x69, 0x66, 0, 0, 0, 0, 0, 0, 0, 0, 0] = some (.fault .truncated, 4, [.failed .truncated]) := by
  decide

theorem test_decStart_header :
    started [0x71, 0x6F, 0x69, 0x66, 0, 0, 0, 3, 0, 0, 0, 2, 4, 0] = some (.active, 14, [.header ⟨3, 2, 4, 0⟩]) := by decide

/-! ### The encoder (2.4, 2.5, 2.6 and 2.9 of the vectors) -/

theorem test_encStart :
    seen (runOp (.encStart ⟨3, 2, 4, 0⟩) State.reset) (fun t => (Memory.bytes t.enc.obuf, t.enc.etotal)) =
      some ([0x71, 0x6F, 0x69, 0x66, 0, 0, 0, 3, 0, 0, 0, 2, 4, 0], 6) := by decide

/-- The product does not wrap at 32 bits (R35). -/
theorem test_encStart_etotal :
    seen (runOp (.encStart ⟨0xFFFFFFFF, 0xFFFFFFFF, 4, 0⟩) State.reset) (fun t => t.enc.etotal) =
      some 18446744065119617025 := by decide

theorem test_encPixel_diff_by_wrap :
    seen (step (encWith ⟨255, 255, 255, 255⟩ 0 0 9 ⟨0, 0, 0, 255⟩)) outAndRun = some ([0x7F], 0) := by decide

theorem test_encPixel_diff_before_luma :
    seen (step (encWith ⟨5, 5, 5, 255⟩ 0 0 9 ⟨3, 6, 5, 255⟩)) outAndRun = some ([0x4E], 0) := by decide

theorem test_encPixel_luma_limits :
    seen (step (encWith ⟨100, 100, 100, 255⟩ 0 0 9 ⟨138, 131, 138, 255⟩)) outAndRun = some ([0xBF, 0xFF], 0) ∧
    seen (step (encWith ⟨100, 100, 100, 255⟩ 0 0 9 ⟨60, 68, 60, 255⟩)) outAndRun = some ([0x80, 0x00], 0) := by decide

theorem test_encPixel_rgb_just_outside :
    seen (step (encWith ⟨100, 100, 100, 255⟩ 0 0 9 ⟨139, 131, 138, 255⟩)) outAndRun = some ([0xFE, 0x8B, 0x83, 0x8A], 0) ∧
    seen (step (encWith ⟨0, 1, 0, 255⟩ 0 0 9 ⟨128, 2, 0, 255⟩)) outAndRun = some ([0xFE, 0x80, 0x02, 0x00], 0) := by decide

theorem test_encPixel_rgba :
    seen (step (encWith ⟨10, 10, 10, 255⟩ 0 0 9 ⟨10, 10, 10, 254⟩)) outAndRun = some ([0xFF, 10, 10, 10, 254], 0) := by
  decide

/-- The start fill of slot 0 hits (R206, conflict C2). -/
theorem test_encPixel_transparent_black_hits :
    seen (step (encWith ⟨0, 0, 0, 255⟩ 0 0 9 ⟨0, 0, 0, 0⟩)) outAndRun = some ([0x00], 0) := by decide

theorem test_encPixel_run_counts_and_fills :
    seen (step (encWith ⟨9, 9, 9, 255⟩ 60 60 99 ⟨9, 9, 9, 255⟩)) outAndRun = some ([], 61) ∧
    seen (step (encWith ⟨9, 9, 9, 255⟩ 61 61 99 ⟨9, 9, 9, 255⟩)) outAndRun = some ([0xFD], 0) ∧
    seen (step (encWith ⟨9, 9, 9, 255⟩ 5 5 6 ⟨9, 9, 9, 255⟩)) outAndRun = some ([0xC5], 0) := by decide

theorem test_encPixel_flushes_first :
    seen (step (encWith ⟨9, 9, 9, 255⟩ 61 61 99 ⟨10, 9, 9, 254⟩)) outAndRun =
      some ([0xFC, 0xFF, 0x0A, 0x09, 0x09, 0xFE], 0) := by decide

theorem test_encPixel_length_mismatch :
    seen (step (encWith ⟨1, 2, 3, 4⟩ 0 2 2 ⟨1, 2, 3, 4⟩)) (fun t => (t.enc.estatus, t.enc.eidx, t.enc.obuf, t.answers)) =
      some (.fault .lengthMismatch, 2, [], [.failed .lengthMismatch]) := by decide

theorem test_encEnd :
    seen (runOp .encEnd (encWith ⟨1, 2, 3, 4⟩ 0 2 2 ⟨1, 2, 3, 4⟩)) (fun t => (t.enc.estatus, Memory.bytes t.enc.obuf)) =
      some (.done, [0, 0, 0, 0, 0, 0, 0, 1]) ∧
    seen (runOp .encEnd (encWith ⟨1, 2, 3, 4⟩ 0 1 2 ⟨1, 2, 3, 4⟩)) (fun t => t.enc.estatus) =
      some (.fault .lengthMismatch) := by decide

/-! ### The byte adapters (2.8 of the vectors) -/

theorem test_bytesToPix_drops_the_tail :
    bytesToPix [1, 2, 3, 4, 5, 6] = [⟨1, 2, 3, 4⟩] ∧ bytesToPix [1, 2, 3] = [] := by decide

theorem test_pixToBytes : pixToBytes [⟨10, 10, 10, 254⟩, ⟨0, 0, 0, 255⟩] = [10, 10, 10, 254, 0, 0, 0, 255] := by decide

/-! ### The first instruction after reset -/

theorem test_placed_word_runs :
    seen (step (State.reset.withFetchWord 16 0x9BAA)) decView =
      some (⟨11, 10, 13, 255⟩, 0, 2, [.pixel ⟨11, 10, 13, 255⟩]) := by decide

/-! ### Witnesses: the hypotheses of the statements can be met -/

/-- A sound state with both units in session: 14 bytes of framing were read, and 14 written. -/
def sound : State :=
  { State.reset with
    ibuf := Memory.ofBytes (Config.magic ++ serHeader ⟨1, 2, 4, 0⟩ ++ [0xC1, 0xFE])
    dec := { DecUnit.reset with dstatus := .active, pos := 14 }
    enc := { EncUnit.reset with
      estatus := .active, etotal := 2, ehdr := ⟨1, 2, 4, 0⟩
      obuf := Memory.ofBytes (Config.magic ++ serHeader ⟨1, 2, 4, 0⟩) } }

theorem witness_sound : Inv sound where
  ibuf_wf := by decide
  obuf_wf := by decide
  pos_le := by decide
  pos_ge := by decide
  drun_le := by decide
  dec_slots := SlotsInPlace.fill _
  dec_faults := by decide
  enc_faults := fun f h => by cases h
  enc_session := fun _ =>
    { erun_le := by decide
      eidx_le := by decide
      erun_le_eidx := by decide
      slots := SlotsInPlace.fill _
      etotal_eq := by decide
      framing := by decide
      run_flushed := fun h => absurd h (by decide) }

/-- ParseAfterSerialize: a chunk, an Index 0 before the marker's tail, an Index 0 before other bytes, and the marker. -/
theorem witness_ParseAfterSerialize :
    serChunk (.luma (-32) 7 (-8)) = some [0x80, 0xF0] ∧ serChunk (.index 0) = some [0] ∧
    serChunk .endMarker = some [0, 0, 0, 0, 0, 0, 0, 1] ∧
    ([0, 0, 0, 0, 0, 0, 1, 9] : List Byte).take 7 = [0, 0, 0, 0, 0, 0, 1] ∧
    ¬(Instr.index 0 = .index 0 ∧ ([0, 0] : List Byte).take 7 = [0, 0, 0, 0, 0, 0, 1]) := by decide

theorem witness_SerializeAfterParse :
    parseChunk ⟨Memory.ofBytes [7, 0xA2, 0x88], 1⟩ = .item (.luma 2 0 0) 3 ∧ Instr.luma 2 0 0 ≠ .endMarker ∧
    serChunk (.luma 2 0 0) = some [0xA2, 0x88] := by decide

/-- FirstByteSelectsTheFormat: one tag at each end of each clause's range; the clauses exclude each other by the tag. -/
theorem witness_FirstByteSelectsTheFormat :
    decode [0, 0, 0, 0, 0, 0, 0, 1] = .item .endMarker 1 ∧ decode [0, 1] = .item (.index 0) 1 ∧
    decode [0x01] = .item (.index 1) 1 ∧ decode [0x3F] = .item (.index 0x3F) 1 ∧
    decode [0x40] = .item (.diff (-2) (-2) (-2)) 1 ∧ decode [0x7F] = .item (.diff 1 1 1) 1 ∧
    decode [0x80, 0x88] = .item (.luma (-32) 0 0) 2 ∧ decode [0xBF, 0x88] = .item (.luma 31 0 0) 2 ∧
    decode [0xC0] = .item (.run 1) 1 ∧ decode [0xFD] = .item (.run 62) 1 ∧
    decode [0xFE, 1, 2, 3] = .item (.rgb 1 2 3) 4 ∧ decode [0xFF, 1, 2, 3, 4] = .item (.rgba 1 2 3 4) 5 := by decide

/-- ParserFaultTable: each row of the table, and the first length past each fault. -/
theorem witness_ParserFaultTable :
    parseChunk ⟨Memory.ofBytes [1], 1⟩ = .failed .endOfInput 1 ∧ decode [0xFE, 1, 2] = .failed .truncated 1 ∧
    decode [0xFE, 1, 2, 3] = .item (.rgb 1 2 3) 4 ∧ decode [0xFF, 1, 2, 3] = .failed .truncated 1 ∧
    decode [0xFF, 1, 2, 3, 4] = .item (.rgba 1 2 3 4) 5 ∧ decode [0x80] = .failed .truncated 1 ∧
    decode [0xBF] = .failed .truncated 1 ∧ decode [0x80, 0] = .item (.luma (-32) (-8) (-8)) 2 := by decide

theorem witness_CursorPrimitivesAreBoundsChecked :
    readFixed ⟨Memory.ofBytes [1, 2, 3], 1⟩ 2 = .got [2, 3] ⟨Memory.ofBytes [1, 2, 3], 3⟩ ∧
    readFixed ⟨Memory.ofBytes [1, 2, 3], 1⟩ 3 = .short ∧
    peekFixed ⟨Memory.ofBytes [1, 2, 3], 1⟩ 2 = .got [2, 3] ⟨Memory.ofBytes [1, 2, 3], 1⟩ := by decide

/-- PeekSettingsAgreeOnLongInput: seven bytes after a 0x00 tag, and six and none. -/
theorem witness_PeekSettingsAgreeOnLongInput :
    (∀ rest, ([0, 1, 2, 3, 4, 5, 6, 7] : List Byte).drop 0 = 0 :: rest → 7 ≤ rest.length) ∧
    (([9, 0, 0, 0, 0, 0, 0, 0] : List Byte).drop 1 = 0 :: [0, 0, 0, 0, 0, 0] ∧ ([0, 0, 0, 0, 0, 0] : List Byte).length < 7) ∧
    ([0] : List Byte).drop 0 = 0 :: [] := by
  refine ⟨fun rest h => ?_, by decide, rfl⟩
  cases h
  decide

/-- U2 of 93_implementation_defined.md, on the longest input where the two settings differ. -/
theorem test_peek_settings :
    parseChunkWith true ⟨Memory.ofBytes [0, 0, 0, 0, 0, 0, 0], 0⟩ = .failed .truncated 1 ∧
    parseChunkWith false ⟨Memory.ofBytes [0, 0, 0, 0, 0, 0, 0], 0⟩ = .item (.index 0) 1 := by decide

theorem witness_PositionPastTheEndIsEndOfInput : ([7] : List Byte).length < 2 := by decide

/-- StoredPixelHitsUntilOverwritten: another slot, and two pixels that share slot 4 (2.1 of the vectors). -/
theorem witness_StoredPixelHitsUntilOverwritten :
    pixelHash ⟨3, 3, 3, 255⟩ ≠ pixelHash ⟨1, 1, 1, 255⟩ ∧ pixelHash ⟨5, 0, 0, 255⟩ = pixelHash ⟨1, 1, 1, 255⟩ ∧
    (⟨5, 0, 0, 255⟩ : Pixel) ≠ ⟨1, 1, 1, 255⟩ := by decide

theorem witness_DiffAddsWrappingDeltas : (Instr.diff (-2) 1 0).wellFormed = true := by decide
theorem witness_LumaAddsDeltasRelativeToGreen : (Instr.luma (-32) (-8) 7).wellFormed = true := by decide

theorem witness_RunRepeatsTheLastPixel :
    (1 ≤ (1 : Byte).toNat ∧ (1 : Byte).toNat ≤ 62) ∧ 1 ≤ (62 : Byte).toNat ∧ (62 : Byte).toNat ≤ 62 := by decide

theorem witness_ItemsChangeOnlyTheirRegisters : ∃ t, exec (.run 3) sound = .next t := exec_wf_next (by decide) _

theorem witness_OnlyIllFormedItemsAreRefused :
    (Instr.run 63).wellFormed = false ∧ (Instr.run 62).wellFormed = true := by decide

/-- StepRunsTheDecodedItem and RunYieldsLengthPixels: a Run of 2 at the cursor. -/
theorem witness_StepRunsTheDecodedItem :
    (sound.asked [.decNext]).pending = [.decNext] ∧ sound.dec.dstatus = .active ∧ sound.dec.drun = 0 ∧
    parseChunk ⟨sound.ibuf, sound.dec.pos⟩ = .item (.run 2) 15 := by decide

theorem witness_StepRunsThePlacedWord : decodeTableWord 8 0xC1 = some (.run 2) := by decide

theorem witness_RunInProgressIsReplayed :
    ∃ s : State, s.dec.dstatus = .active ∧ 0 < s.dec.drun.toNat :=
  ⟨{ sound with dec := { sound.dec with drun := 1 } }, by decide⟩

theorem witness_ParserFailureFaultsTheDecoder :
    (setPos 15 sound).dec.dstatus = .active ∧ (setPos 15 sound).dec.drun = 0 ∧
    parseChunk ⟨sound.ibuf, 15⟩ = .failed .truncated 16 ∧ parseChunk ⟨sound.ibuf, 16⟩ = .failed .endOfInput 16 := by decide

theorem witness_DecNextOutsideActive :
    (setStatus .dec .done sound).dec.dstatus = .done ∧
    (setStatus .dec (.fault .endOfInput) sound).dec.dstatus = .fault .endOfInput ∧ State.reset.dec.dstatus = .idle := by
  decide

/-- DecNextIgnoresTheHeader, DecodeSessionsEnd, OnlyItsOwnOperationsChangeAUnit, BuffersOnlyMoveForward: a DEC_NEXT that
gives a next state from the sound state. -/
theorem witness_DecNext_next : ∃ t, runOp .decNext sound = .next t ∧ sound.dec.dstatus = .active ∧ Inv sound :=
  ⟨_, rfl, rfl, witness_sound⟩

theorem witness_WrongPixelCountRaises :
    sound.enc.estatus = .active ∧ sound.enc.eidx < sound.enc.etotal ∧
    (encWith ⟨0, 0, 0, 0⟩ 0 2 2 ⟨0, 0, 0, 0⟩).enc.eidx = (encWith ⟨0, 0, 0, 0⟩ 0 2 2 ⟨0, 0, 0, 0⟩).enc.etotal := by decide

/-- RepeatedPixelExtendsTheRun, OnePixelEmitsAtMostTwoChunks: the run fills, the pixel is final, and neither. -/
theorem witness_RepeatedPixelExtendsTheRun :
    (∀ e ∈ [(encWith ⟨9, 9, 9, 255⟩ 61 61 99 ⟨9, 9, 9, 255⟩).enc, (encWith ⟨9, 9, 9, 255⟩ 5 5 6 ⟨9, 9, 9, 255⟩).enc,
        (encWith ⟨9, 9, 9, 255⟩ 60 60 99 ⟨9, 9, 9, 255⟩).enc],
      e.estatus = .active ∧ e.eidx ≠ e.etotal ∧ e.erun.toNat ≤ 61 ∧ Memory.wf e.obuf = true ∧
      (⟨9, 9, 9, 255⟩ : Pixel) = e.elast) := by decide

theorem witness_CachedPixelBecomesIndex :
    let e := (encWith ⟨0, 0, 0, 255⟩ 61 61 99 ⟨0, 0, 0, 0⟩).enc
    e.estatus = .active ∧ e.eidx ≠ e.etotal ∧ e.erun.toNat ≤ 61 ∧ Memory.wf e.obuf = true ∧
    (⟨0, 0, 0, 0⟩ : Pixel) ≠ e.elast ∧ e.ecache[(pixelHash ⟨0, 0, 0, 0⟩).val] = ⟨0, 0, 0, 0⟩ := by decide

theorem witness_SameAlphaMissBecomesDiffLumaOrRgb :
    let e := (encWith ⟨100, 100, 100, 255⟩ 61 61 99 ⟨60, 68, 60, 255⟩).enc
    e.estatus = .active ∧ e.eidx ≠ e.etotal ∧ e.erun.toNat ≤ 61 ∧ Memory.wf e.obuf = true ∧
    (⟨60, 68, 60, 255⟩ : Pixel) ≠ e.elast ∧ e.ecache[(pixelHash ⟨60, 68, 60, 255⟩).val] ≠ ⟨60, 68, 60, 255⟩ ∧
    (⟨60, 68, 60, 255⟩ : Pixel).a = e.elast.a := by decide

theorem witness_ChangedAlphaMissBecomesRgba :
    let e := (encWith ⟨10, 10, 10, 255⟩ 0 0 9 ⟨10, 10, 10, 254⟩).enc
    e.estatus = .active ∧ e.eidx ≠ e.etotal ∧ e.erun.toNat ≤ 61 ∧ Memory.wf e.obuf = true ∧
    e.ecache[(pixelHash ⟨10, 10, 10, 254⟩).val] ≠ ⟨10, 10, 10, 254⟩ ∧ (⟨10, 10, 10, 254⟩ : Pixel).a ≠ e.elast.a := by decide

/-- EncEndClosesTheFile: the image is complete, and it is not. -/
theorem witness_EncEndClosesTheFile :
    let e := (encWith ⟨0, 0, 0, 255⟩ 0 2 2 ⟨0, 0, 0, 0⟩).enc
    e.estatus = .active ∧ Memory.wf e.obuf = true ∧ e.eidx = e.etotal ∧ sound.enc.estatus = .active ∧
    Memory.wf sound.enc.obuf = true ∧ sound.enc.eidx ≠ sound.enc.etotal := by decide

/-- The last clause of EncEndClosesTheFile: a sound session without pixels is complete at once. -/
theorem witness_EncEnd_sound : ∃ s, Inv s ∧ s.enc.estatus = .active ∧ s.enc.eidx = s.enc.etotal := by
  refine ⟨{ sound with
    enc := { EncUnit.reset with
      estatus := .active, ehdr := ⟨0, 7, 4, 0⟩, obuf := Memory.ofBytes (Config.magic ++ serHeader ⟨0, 7, 4, 0⟩) } },
    ?_, rfl, rfl⟩
  exact
    { ibuf_wf := by decide
      obuf_wf := by decide
      pos_le := by decide
      pos_ge := by decide
      drun_le := by decide
      dec_slots := SlotsInPlace.fill _
      dec_faults := by decide
      enc_faults := fun f h => by cases h
      enc_session := fun _ =>
        { erun_le := by decide
          eidx_le := by decide
          erun_le_eidx := by decide
          slots := SlotsInPlace.fill _
          etotal_eq := by decide
          framing := by decide
          run_flushed := fun _ => rfl } }

theorem witness_EncOperationsOutsideActive :
    State.reset.enc.estatus = .idle ∧ (setStatus .enc .done sound).enc.estatus = .done ∧
    (setStatus .enc (.fault .lengthMismatch) sound).enc.estatus = .fault .lengthMismatch := by decide

theorem witness_WholeEncodeEndsByItsPixelCount :
    ([⟨1, 2, 3, 4⟩] : List Pixel).length = (1 : Word32).toNat * (1 : Word32).toNat ∧
    ([] : List Pixel).length ≠ (1 : Word32).toNat * (1 : Word32).toNat := by decide

/-- DecodeAfterEncodeGivesThePixels: an image of one pixel that takes no hit, and its whole encode. -/
theorem witness_DecodeAfterEncodeGivesThePixels :
    ([⟨1, 1, 1, 255⟩] : List Pixel).length = (1 : Word32).toNat * (1 : Word32).toNat ∧
    hitsUnstored Config.lastInit (cacheFill Config.encCacheInit) [] [⟨1, 1, 1, 255⟩] = false ∧
    (⟨0, 0, 0, 0⟩ : Pixel) ∉ [(⟨1, 1, 1, 255⟩ : Pixel)] ∧
    ∃ t, Sys2Proof.core.run 3 (State.reset.asked (encodeScript ⟨1, 1, 4, 0⟩ [⟨1, 1, 1, 255⟩])) = .next t :=
  ⟨by decide, by decide, by decide, _, rfl⟩

/-- DecodeAfterEncodeGivesThePixels, the excluded event: the first pixel of an image is `{0,0,0,0}`. -/
theorem witness_DecodeAfterEncode_event :
    hitsUnstored Config.lastInit (cacheFill Config.encCacheInit) [] [] = false ∧
    hitsUnstored Config.lastInit (cacheFill Config.encCacheInit) [] ([] ++ [⟨0, 0, 0, 0⟩]) = true := by decide

/-- EveryStepKeepsTheInvariant, NoReadLeavesTheBuffer, OperationsAnswerOrAreRefusedByTheTable: a sound state with an
operation asked for, and a step from it. -/
theorem witness_EveryStepKeepsTheInvariant :
    Inv (sound.asked [.encPixel ⟨1, 1, 1, 255⟩]) ∧
    ∃ t, step (sound.asked [.encPixel ⟨1, 1, 1, 255⟩]) = .next t := by
  refine ⟨?_, _, rfl⟩
  have h := witness_sound
  exact ⟨h.ibuf_wf, h.obuf_wf, h.pos_le, h.pos_ge, h.drun_le, h.dec_slots, h.dec_faults, h.enc_faults, h.enc_session⟩

theorem witness_FaultEntry :
    (HostOp.agent .decNext = some .dec ∧ HostOp.isStart .decNext = false ∧
      ∃ t, runOp .decNext (setPos 15 sound) = .next t ∧ t.answers = (setPos 15 sound).answers ++ [.failed .truncated]) ∧
    (HostOp.agent .encEnd = some .enc ∧ HostOp.isStart .encEnd = false ∧
      ∃ t, runOp .encEnd sound = .next t ∧ t.answers = sound.answers ++ [.failed .lengthMismatch]) :=
  ⟨⟨rfl, rfl, _, rfl, rfl⟩, rfl, rfl, _, rfl, rfl⟩

theorem witness_EncOperationsAnswerCompleteOrFail :
    HostOp.agent (.encPixel ⟨1, 1, 1, 255⟩) = some .enc ∧ HostOp.agent .encEnd = some .enc ∧
    (∃ t, runOp (.encPixel ⟨1, 1, 1, 255⟩) sound = .next t ∧ t.enc.estatus = .active) ∧
    ∃ t, runOp .encEnd sound = .next t ∧ t.enc.estatus = .fault .lengthMismatch :=
  ⟨rfl, rfl, ⟨_, rfl, rfl⟩, _, rfl, rfl⟩

theorem witness_FaultsAreStickyUntilStart :
    HostOp.isStart .decNext = false ∧ HostOp.isStart .encEnd = false ∧
    (∃ t, runOp .decNext (setStatus .dec (.fault .truncated) sound) = .next t) ∧
    ∃ t, runOp .encEnd (setStatus .enc (.fault .lengthMismatch) sound) = .next t :=
  ⟨rfl, rfl, ⟨_, rfl⟩, _, rfl⟩

theorem witness_OnlyItsOwnOperationsChangeAUnit :
    State.reset.pending = [] ∧ HostOp.agent .decNext ≠ some .enc ∧ HostOp.agent .encEnd ≠ some .dec ∧
    HostOp.agent (.hash ⟨0, 0, 0, 0⟩) ≠ some .dec := by decide

theorem witness_StepsOfTheTwoUnitsCommute :
    HostOp.agent .decNext = some .dec ∧ HostOp.agent (.encPixel ⟨1, 1, 1, 255⟩) = some .enc ∧
    ∃ s1 s2, runOp .decNext sound = .next s1 ∧ runOp (.encPixel ⟨1, 1, 1, 255⟩) s1 = .next s2 :=
  ⟨rfl, rfl, _, _, rfl, rfl⟩

theorem witness_PureFunctionsAnswerTheirResult :
    (Instr.index 63).wellFormed = true ∧ (Instr.index 64).wellFormed = false ∧
    parseChunk ⟨Memory.ofBytes [0xC0], 0⟩ = .item (.run 1) 1 ∧
    parseChunk ⟨Memory.ofBytes [], 0⟩ = .failed .endOfInput 0 := by decide

end Sys2Proof.Tests
end

section
/-! Operations confined to one unit (R6, R263): such an operation is a function of its unit's registers alone. It does what
it would do with the rest of the machine at power-on, its effect on the unit is put back into the whole state, and what it
answers comes after the earlier answers. Both the frame of a unit's operations and the commutation of the two units follow
from this one equation. -/

namespace Sys2Proof.Machine

/-- The registers of one unit, with the rest of the machine at power-on. DEC's side holds its input buffer and the count
of free values, which DEC_START alone takes. -/
def alone (u : Agent) (s : State) : State :=
  match u with
  | .dec => { State.reset with dec := s.dec, ibuf := s.ibuf, freeCount := s.freeCount }
  | .enc => { State.reset with enc := s.enc }

/-- `s` with the unit's side taken from `t`, and the answers of `t` after its own. -/
def rejoin (u : Agent) (s t : State) : State :=
  match u with
  | .dec => { s with dec := t.dec, ibuf := t.ibuf, freeCount := t.freeCount, answers := s.answers ++ t.answers }
  | .enc => { s with enc := t.enc, answers := s.answers ++ t.answers }

/-- The operation runs on the unit alone, and its effect is put back. -/
def ConfinedTo (u : Agent) (k : State → Result) : Prop :=
  ∀ s, k s = andThen (k (alone u s)) fun t => .next (rejoin u s t)

@[simp] theorem alone_dec_dec (s : State) : (alone .dec s).dec = s.dec := rfl
@[simp] theorem alone_enc_enc (s : State) : (alone .enc s).enc = s.enc := rfl
@[simp] theorem cursorOf_alone_dec (s : State) : cursorOf (alone .dec s) = cursorOf s := rfl

/-! ### The rules of confinement -/

theorem alone_rejoin (u : Agent) (s t : State) : alone u (rejoin u s t) = alone u t := by cases u <;> rfl

/-- The two units share no register, so what one does is not seen by the other. -/
theorem alone_enc_rejoin_dec (s t : State) : alone .enc (rejoin .dec s t) = alone .enc s := rfl
theorem alone_dec_rejoin_enc (s t : State) : alone .dec (rejoin .enc s t) = alone .dec s := rfl

theorem rejoin_rejoin (u : Agent) (s t w : State) : rejoin u (rejoin u s t) w = rejoin u s (rejoin u t w) := by
  cases u <;> simp [rejoin]

theorem andThen_assoc (o : Result) (k m : State → Result) :
    andThen (andThen o k) m = andThen o fun t => andThen (k t) m := by cases o <;> rfl

theorem andThen_eq_next {o : Result} {k : State → Result} {t : State} (h : andThen o k = .next t) :
    ∃ r, o = .next r ∧ k r = .next t := by
  cases o with
  | next r => exact ⟨r, rfl, h⟩
  | fault f => cases h
  | refused r => cases h

/-- What a confined operation's next state is: the unit's own, put back into the state before. -/
theorem ConfinedTo.next_cases {u : Agent} {k : State → Result} (hk : ConfinedTo u k) {s t : State} (h : k s = .next t) :
    ∃ r, k (alone u s) = .next r ∧ t = rejoin u s r := by
  obtain ⟨r, hr, ht⟩ := andThen_eq_next ((hk s).symm.trans h)
  exact ⟨r, hr, (Host.Outcome.next.inj ht).symm⟩

theorem ConfinedTo.next_of_alone {u : Agent} {k : State → Result} (hk : ConfinedTo u k) {s r : State}
    (h : k (alone u s) = .next r) : k s = .next (rejoin u s r) := by rw [hk s, h, andThen_next]

theorem confinedTo_update {u : Agent} {f : State → State} (hf : ∀ s, f s = rejoin u s (f (alone u s))) :
    ConfinedTo u fun s => .next (f s) := fun s => congrArg Host.Outcome.next (hf s)

theorem confinedTo_next (u : Agent) : ConfinedTo u .next :=
  confinedTo_update (f := id) fun s => by cases u <;> simp [rejoin, alone, State.reset]

theorem confinedTo_refused (u : Agent) (r : Refusal) : ConfinedTo u fun _ => .refused r := fun _ => rfl

/-- One confined operation after another is confined. -/
theorem ConfinedTo.bind {u : Agent} {k m : State → Result} (hk : ConfinedTo u k) (hm : ConfinedTo u m) :
    ConfinedTo u fun s => andThen (k s) m := by
  intro s
  show andThen (k s) m = andThen (andThen (k (alone u s)) m) _
  rw [hk s, andThen_assoc, andThen_assoc]
  congr 1
  funext t
  rw [andThen_next, hm (rejoin u s t), hm t, alone_rejoin, andThen_assoc]
  simp only [rejoin_rejoin, andThen_next]

/-- A confined operation that is chosen by a look at the unit's own registers is confined. -/
theorem confinedTo_reading {α : Type} {u : Agent} (look : State → α) {k : α → State → Result}
    (hlook : ∀ s, look (alone u s) = look s) (hk : ∀ a, ConfinedTo u (k a)) : ConfinedTo u fun s => k (look s) s := by
  intro s
  show k (look s) s = andThen (k (look (alone u s)) (alone u s)) _
  rw [hlook, hk (look s) s]

theorem confinedTo_ite {u : Agent} (c : State → Prop) [DecidablePred c] {k m : State → Result}
    (hc : ∀ s, c (alone u s) ↔ c s) (hk : ConfinedTo u k) (hm : ConfinedTo u m) :
    ConfinedTo u fun s => if c s then k s else m s := by
  intro s
  by_cases h : c s
  · simpa only [hc, h, if_true] using hk s
  · simpa only [hc, h, if_false] using hm s

theorem confinedTo_ifWellFormed {u : Agent} (i : Instr) {f : State → State} (hf : ∀ s, f s = rejoin u s (f (alone u s))) :
    ConfinedTo u fun s => ifWellFormed i (f s) := by
  cases h : i.wellFormed with
  | true => simpa only [ifWellFormed_true h] using confinedTo_update hf
  | false => simpa only [ifWellFormed_false h] using confinedTo_refused u _

/-! ### The operations of DEC -/

theorem confinedTo_dec_exec (i : Instr) : ConfinedTo .dec (exec i) := by
  cases i with
  | rgb r g b => exact confinedTo_update fun _ => rfl
  | rgba r g b a => exact confinedTo_update fun _ => rfl
  | endMarker => exact confinedTo_update fun _ => rfl
  | index idx =>
    intro s
    simp only [exec, execIndex, alone_dec_dec]
    cases cacheFetch s.dec.dcache idx with
    | some p => rfl
    | none => rfl
  | diff dr dg db => exact confinedTo_ifWellFormed _ fun _ => rfl
  | luma dg drDg dbDg => exact confinedTo_ifWellFormed _ fun _ => rfl
  | run n => exact confinedTo_ifWellFormed _ fun _ => rfl

theorem confinedTo_dec_setPos (pos : Nat) : ConfinedTo .dec fun s => .next (setPos pos s) :=
  confinedTo_update fun s => by simp [rejoin, alone, setPos, State.reset]

theorem confinedTo_dec_fetchAndExec : ConfinedTo .dec fetchAndExec := by
  intro s
  simp only [fetchAndExec, cursorOf_alone_dec]
  cases parseChunk (cursorOf s) with
  | item i pos => exact (confinedTo_dec_setPos pos).bind (confinedTo_dec_exec i) s
  | failed f pos => rfl
  | outside a => rfl

theorem confinedTo_dec_pullPixel : ConfinedTo .dec pullPixel :=
  confinedTo_ite (fun s => 0 < s.dec.drun.toNat) (fun _ => Iff.rfl) (confinedTo_update fun _ => rfl)
    confinedTo_dec_fetchAndExec

theorem confinedTo_dec_decNext : ConfinedTo .dec decNext := by
  intro s
  simp only [decNext, alone_dec_dec]
  cases s.dec.dstatus with
  | idle => rfl
  | active => exact confinedTo_dec_pullPixel s
  | done => rfl
  | fault f => rfl

/-- How DEC_START ends depends on its input only, and each end writes DEC's side only. -/
theorem confinedTo_dec_decStart (input : List Byte) : ConfinedTo .dec (decStart input) := by
  intro s
  simp only [decStart_eq]
  split
  · rfl
  · split
    · rfl
    · cases parseHeader ((input.drop 4).take 10) with
      | some h => rfl
      | none => rfl

/-! ### The operations of ENC -/

theorem confinedTo_enc_emit (bs : List Byte) : ConfinedTo .enc fun s => .next (emit bs s) :=
  confinedTo_update fun s => by simp [rejoin, alone, emit, State.reset]

theorem confinedTo_enc_countPixel : ConfinedTo .enc fun s => .next (countPixel s) :=
  confinedTo_update fun s => by simp [rejoin, alone, countPixel, State.reset]

theorem confinedTo_enc_setErun (n : Byte) : ConfinedTo .enc fun s => .next (setErun n s) :=
  confinedTo_update fun s => by simp [rejoin, alone, setErun, State.reset]

theorem confinedTo_enc_storePixel (p : Pixel) : ConfinedTo .enc fun s => .next (storePixel p s) :=
  confinedTo_update fun s => by simp [rejoin, alone, storePixel, State.reset]

theorem confinedTo_enc_rememberPixel (p : Pixel) : ConfinedTo .enc fun s => .next (rememberPixel p s) :=
  confinedTo_update fun _ => rfl

theorem confinedTo_enc_emitChunk (i : Instr) : ConfinedTo .enc (emitChunk i) := by
  intro s
  unfold emitChunk
  cases serChunk i with
  | some bs => exact confinedTo_enc_emit bs s
  | none => rfl

theorem confinedTo_enc_flushRun : ConfinedTo .enc flushRun :=
  (confinedTo_reading (fun s => s.enc.erun) (fun _ => rfl) fun n => confinedTo_enc_emitChunk (.run n)).bind
    (confinedTo_enc_setErun 0)

/-- A flush on a test of ENC's registers, as steps 2 and 3 make it (R204, R205). -/
theorem confinedTo_enc_flushRun_if (test : EncUnit → Bool) :
    ConfinedTo .enc fun s => if test s.enc then flushRun s else .next s :=
  confinedTo_ite (fun s => test s.enc) (fun _ => Iff.rfl) confinedTo_enc_flushRun (confinedTo_next .enc)

theorem confinedTo_enc_encodeRepeat (p : Pixel) : ConfinedTo .enc (encodeRepeat p) :=
  ((confinedTo_reading (fun s => s.enc.erun + 1) (fun _ => rfl) confinedTo_enc_setErun).bind
    (confinedTo_enc_flushRun_if runIsDue)).bind (confinedTo_enc_rememberPixel p)

/-- Steps 4 to 7: the chunk is chosen by ENC's registers before the store (R81). -/
theorem confinedTo_enc_encodeNew (p : Pixel) : ConfinedTo .enc (encodeNew p) :=
  have hit : ConfinedTo .enc (emitChunk (.index (BitVec.ofNat 8 (pixelHash p).val))) := confinedTo_enc_emitChunk _
  have miss : ConfinedTo .enc fun s => emitChunk (missChunk s.enc p) (storePixel p s) :=
    confinedTo_reading (fun s => missChunk s.enc p) (fun _ => rfl) fun i =>
      (confinedTo_enc_storePixel p).bind (confinedTo_enc_emitChunk i)
  (confinedTo_ite (fun s => (cacheProbe s.enc.ecache p).2) (fun _ => Iff.rfl) hit miss).bind
    (confinedTo_enc_rememberPixel p)

theorem confinedTo_enc_encodeDiffering (p : Pixel) : ConfinedTo .enc (encodeDiffering p) :=
  (confinedTo_enc_flushRun_if runIsPending).bind (confinedTo_enc_encodeNew p)

theorem confinedTo_enc_encodePixel (p : Pixel) : ConfinedTo .enc (encodePixel p) :=
  confinedTo_ite (fun s => isRepeat s.enc p) (fun _ => Iff.rfl) (confinedTo_enc_encodeRepeat p)
    (confinedTo_enc_encodeDiffering p)

theorem confinedTo_enc_raise (f : Failure) : ConfinedTo .enc fun s => .next (raise .enc f s) :=
  confinedTo_update fun _ => rfl

theorem confinedTo_enc_encPixel (p : Pixel) : ConfinedTo .enc (encPixel p) := by
  intro s
  simp only [encPixel, alone_enc_enc]
  cases s.enc.estatus with
  | idle => rfl
  | active =>
    exact confinedTo_ite (fun s => atTotal s.enc) (fun _ => Iff.rfl) (confinedTo_enc_raise .lengthMismatch)
      (confinedTo_enc_countPixel.bind (confinedTo_enc_encodePixel p)) s
  | done => rfl
  | fault f => rfl

/-- A complete image is closed by the end marker (R216). -/
theorem confinedTo_enc_closeFile :
    ConfinedTo .enc fun s => .next (answer .complete (setStatus .enc .done (emit Config.endMark s))) :=
  confinedTo_update fun _ => rfl

theorem confinedTo_enc_encEnd : ConfinedTo .enc encEnd := by
  intro s
  simp only [encEnd, alone_enc_enc]
  cases s.enc.estatus with
  | idle => rfl
  | active =>
    exact confinedTo_ite (fun s => atTotal s.enc) (fun _ => Iff.rfl) confinedTo_enc_closeFile
      (confinedTo_enc_raise .lengthMismatch) s
  | done => rfl
  | fault f => rfl

theorem confinedTo_enc_encStart (h : Header) : ConfinedTo .enc (encStart h) := confinedTo_update fun _ => rfl

/-! ### The two units -/

/-- R6, R263: an operation of a unit is confined to that unit. -/
theorem runOp_confinedTo {op : HostOp} {u : Agent} (h : op.agent = some u) : ConfinedTo u (runOp op) := by
  cases op with
  | decStart input => cases h; exact confinedTo_dec_decStart input
  | decNext => cases h; exact confinedTo_dec_decNext
  | encStart hdr => cases h; exact confinedTo_enc_encStart hdr
  | encPixel p => cases h; exact confinedTo_enc_encPixel p
  | encEnd => cases h; exact confinedTo_enc_encEnd
  | hash | parseChunk | serChunk | bytesToPix | pixToBytes => cases h

/-- Settles O54: each operation is confined to its unit, so each does after the other what it does before it. -/
theorem stepsOfTheTwoUnitsCommute : Obligations.StepsOfTheTwoUnitsCommute := by
  intro s s1 s2 d e hd he h1 h2
  have hdec := runOp_confinedTo hd
  have henc := runOp_confinedTo he
  obtain ⟨r, hr, rfl⟩ := hdec.next_cases h1
  obtain ⟨t, ht, rfl⟩ := henc.next_cases h2
  rw [alone_enc_rejoin_dec] at ht
  refine ⟨rejoin .enc s t, rejoin .dec (rejoin .enc s t) r, henc.next_of_alone ht, hdec.next_of_alone ?_, rfl, rfl, rfl⟩
  rw [alone_dec_rejoin_enc, hr]

end Sys2Proof.Machine
end

section
/-! The pure functions as HOST's requests (R50, log entry 7): each hands back one answer and touches nothing else. -/

namespace Sys2Proof.Machine

theorem serForHost_wf {i : Instr} (h : i.wellFormed = true) (s : State) :
    serForHost i s = .next (answer (.bytes (encode i)) s) := by simp only [serForHost, serChunk_wf h]

theorem serForHost_illFormed {i : Instr} (h : i.wellFormed = false) (s : State) :
    serForHost i s = .refused (.illFormedChunk i) := by simp [serForHost, serChunk, h]

theorem parseForHost_item {c : Cursor} {i : Instr} {pos : Nat} (h : parseChunk c = .item i pos) (s : State) :
    parseForHost c s = .next (answer (.item i pos) s) := by simp only [parseForHost, h]

theorem parseForHost_failed {c : Cursor} {f : Failure} {pos : Nat} (h : parseChunk c = .failed f pos) (s : State) :
    parseForHost c s = .next (answer (.failed f) s) := by simp only [parseForHost, h]

/-- All that a pure function can do to the state is to answer. -/
theorem runOp_pure_next {op : HostOp} {s t : State} (hop : op.agent = none) (h : runOp op s = .next t) :
    ∃ v, t = answer v s := by
  cases op with
  | hash | bytesToPix | pixToBytes => cases h; exact ⟨_, rfl⟩
  | parseChunk input pos =>
    simp only [runOp, parseForHost] at h
    split at h
    · cases h; exact ⟨_, rfl⟩
    · cases h; exact ⟨_, rfl⟩
    · cases h
  | serChunk i =>
    simp only [runOp, serForHost] at h
    split at h
    · cases h; exact ⟨_, rfl⟩
    · cases h
  | decStart | decNext | encStart | encPixel | encEnd => cases hop

/-- Settles O56: each request is one call of its function, and its answer is the result of that call. -/
theorem pureFunctionsAnswerTheirResult : Obligations.PureFunctionsAnswerTheirResult := fun s =>
  ⟨fun _ => rfl,
   fun _ h => serForHost_wf h s,
   fun _ h => serForHost_illFormed h s,
   fun _ _ _ _ h => parseForHost_item h s,
   fun _ _ _ _ h => parseForHost_failed h s,
   fun _ => rfl,
   fun _ => rfl⟩

end Sys2Proof.Machine
end

section
/-! How an operation of ENC ends, from any state: it raises, or it works on the session without an answer and then completes
(R201, R216, R218). The work between is a relation of its own, which the parts of an operation compose to. -/

namespace Sys2Proof.Machine

/-- The output has only grown (R67). -/
def Memory.Extends (m m' : Memory) : Prop := ∃ bs, m' = Memory.append m bs

theorem Memory.Extends.refl (m : Memory) : Memory.Extends m m := ⟨[], (Memory.append_nil m).symm⟩

theorem Memory.Extends.trans {m m' m'' : Memory} (h : Memory.Extends m m') (h' : Memory.Extends m' m'') :
    Memory.Extends m m'' := by
  obtain ⟨xs, rfl⟩ := h
  obtain ⟨ys, rfl⟩ := h'
  exact ⟨xs ++ ys, Memory.append_append m xs ys⟩

theorem Memory.Extends.size_le {m m' : Memory} (h : Memory.Extends m m') : Memory.size m ≤ Memory.size m' := by
  obtain ⟨bs, rfl⟩ := h
  simp

theorem Memory.Extends.read_old {m m' : Memory} (h : Memory.Extends m m') (hwf : Memory.wf m = true) {a : Nat}
    (ha : a < Memory.size m) : Memory.read m' a = Memory.read m a := by
  obtain ⟨bs, rfl⟩ := h
  exact (Memory.append_appended hwf bs).old a ha

/-- The part of an ENC operation before its answer: the session's status stays, and the output only grows. -/
structure EncWork (s t : State) : Prop where
  estatus : t.enc.estatus = s.enc.estatus
  answers : t.answers = s.answers
  obuf : Memory.Extends s.enc.obuf t.enc.obuf

theorem EncWork.trans {s t u : State} (h : EncWork s t) (h' : EncWork t u) : EncWork s u :=
  ⟨h'.estatus.trans h.estatus, h'.answers.trans h.answers, h.obuf.trans h'.obuf⟩

theorem EncWork.refl (s : State) : EncWork s s := ⟨rfl, rfl, .refl _⟩
theorem encWork_emit (bs : List Byte) (s : State) : EncWork s (emit bs s) := ⟨rfl, rfl, bs, rfl⟩
theorem encWork_setErun (n : Byte) (s : State) : EncWork s (setErun n s) := ⟨rfl, rfl, .refl _⟩
theorem encWork_countPixel (s : State) : EncWork s (countPixel s) := ⟨rfl, rfl, .refl _⟩
theorem encWork_storePixel (p : Pixel) (s : State) : EncWork s (storePixel p s) := ⟨rfl, rfl, .refl _⟩

theorem encWork_emitChunk {i : Instr} {s t : State} (h : emitChunk i s = .next t) : EncWork s t := by
  unfold emitChunk at h
  split at h
  · cases h; exact encWork_emit _ s
  · cases h

theorem encWork_flushRun {s t : State} (h : flushRun s = .next t) : EncWork s t := by
  obtain ⟨u, hu, ht⟩ := andThen_eq_next h
  cases ht
  exact (encWork_emitChunk hu).trans (encWork_setErun 0 u)

/-- A flush on a test, as steps 2 and 3 make it (R204, R205). -/
theorem encWork_flushRun_if {c : Prop} [Decidable c] {s t : State} (h : (if c then flushRun s else .next s) = .next t) :
    EncWork s t := by
  split at h
  · exact encWork_flushRun h
  · cases h; exact .refl s

theorem encodeRepeat_next {p : Pixel} {s t : State} (h : encodeRepeat p s = .next t) :
    ∃ u, EncWork s u ∧ t = rememberPixel p u := by
  obtain ⟨u, hu, ht⟩ := andThen_eq_next h
  cases ht
  exact ⟨u, (encWork_setErun _ s).trans (encWork_flushRun_if hu), rfl⟩

theorem encodeNew_next {p : Pixel} {s t : State} (h : encodeNew p s = .next t) :
    ∃ u, EncWork s u ∧ t = rememberPixel p u := by
  obtain ⟨u, hu, ht⟩ := andThen_eq_next h
  cases ht
  refine ⟨u, ?_, rfl⟩
  split at hu
  · exact encWork_emitChunk hu
  · exact (encWork_storePixel p s).trans (encWork_emitChunk hu)

theorem encodeDiffering_next {p : Pixel} {s t : State} (h : encodeDiffering p s = .next t) :
    ∃ u, EncWork s u ∧ t = rememberPixel p u := by
  obtain ⟨v, hv, ht⟩ := andThen_eq_next h
  obtain ⟨u, hu, rfl⟩ := encodeNew_next ht
  exact ⟨u, (encWork_flushRun_if hv).trans hu, rfl⟩

theorem encodePixel_next {p : Pixel} {s t : State} (h : encodePixel p s = .next t) :
    ∃ u, EncWork s u ∧ t = rememberPixel p u := by
  unfold encodePixel at h
  split at h
  · exact encodeRepeat_next h
  · exact encodeDiffering_next h

/-- ENC_PIXEL raises, or it works in an ACTIVE session and remembers its pixel (R201, R213, R218). -/
theorem encPixel_next_cases {p : Pixel} {s t : State} (h : encPixel p s = .next t) :
    (∃ f, t = raise .enc f s) ∨ (s.enc.estatus = .active ∧ ∃ u, EncWork s u ∧ t = rememberPixel p u) := by
  unfold encPixel at h
  cases hst : s.enc.estatus with
  | idle => rw [hst] at h; cases h
  | done => rw [hst] at h; cases h
  | fault f => rw [hst] at h; cases h; exact .inl ⟨f, rfl⟩
  | active =>
    simp only [hst] at h
    split at h
    · cases h; exact .inl ⟨_, rfl⟩
    · obtain ⟨u, hu, rfl⟩ := encodePixel_next h
      exact .inr ⟨rfl, u, (encWork_countPixel s).trans hu, rfl⟩

/-- ENC_END raises, or it writes the end marker and closes the session (R216, R218). -/
theorem encEnd_next_cases {s t : State} (h : encEnd s = .next t) :
    (∃ f, t = raise .enc f s) ∨ t = answer .complete (setStatus .enc .done (emit Config.endMark s)) := by
  unfold encEnd at h
  cases hst : s.enc.estatus with
  | idle => rw [hst] at h; cases h
  | done => rw [hst] at h; cases h
  | fault f => rw [hst] at h; cases h; exact .inl ⟨f, rfl⟩
  | active =>
    simp only [hst] at h
    split at h
    · cases h; exact .inr rfl
    · cases h; exact .inl ⟨_, rfl⟩

/-- An operation of ENC but for ENC_START only appends to the output. -/
theorem runOp_enc_extends {op : HostOp} {s t : State} (hop : op.agent = some .enc) (hns : op.isStart = false)
    (h : runOp op s = .next t) : Memory.Extends s.enc.obuf t.enc.obuf := by
  cases op with
  | encStart | decStart => cases hns
  | encPixel p =>
    obtain ⟨f, rfl⟩ | ⟨_, u, hu, rfl⟩ := encPixel_next_cases h
    · exact .refl _
    · exact hu.obuf
  | encEnd =>
    obtain ⟨f, rfl⟩ | rfl := encEnd_next_cases h
    · exact .refl _
    · exact ⟨Config.endMark, rfl⟩
  | decNext | hash | parseChunk | serChunk | bytesToPix | pixToBytes => cases hop

/-- Settles O42: each of ENC's three operations raises, or ends with the answer `complete`; ENC_START and ENC_END write the
status they leave, and ENC_PIXEL keeps ACTIVE. -/
theorem encOperationsAnswerCompleteOrFail : Obligations.EncOperationsAnswerCompleteOrFail := by
  intro s t op hop h
  cases op with
  | encStart hdr => cases h; exact .inl ⟨rfl, .inl rfl⟩
  | encPixel p =>
    obtain ⟨f, rfl⟩ | ⟨ha, u, hu, rfl⟩ := encPixel_next_cases h
    · exact .inr ⟨f, rfl, rfl⟩
    · exact .inl ⟨by rw [rememberPixel_answers, hu.answers], .inl (hu.estatus.trans ha)⟩
  | encEnd =>
    obtain ⟨f, rfl⟩ | rfl := encEnd_next_cases h
    · exact .inr ⟨f, rfl, rfl⟩
    · exact .inl ⟨rfl, .inr rfl⟩
  | decStart | decNext | hash | parseChunk | serChunk | bytesToPix | pixToBytes => cases hop

end Sys2Proof.Machine
end

section
/-! Where DEC_NEXT leaves the cursor (R24, R61): where it was, or where the parser stopped, which lies between the cursor and
the end of the input. -/

namespace Sys2Proof.Machine

/-- The position at which the parser stopped, with an item or with a failure. -/
def stopPos? : Parsed → Option Nat
  | .item _ pos => some pos
  | .failed _ pos => some pos
  | .outside _ => none

theorem topBitsView_stopPos {tag : Byte} {pos p : Nat} {rest : List Byte} (h : stopPos? (topBitsView tag pos rest) = some p) :
    pos ≤ p ∧ p ≤ pos + rest.length := by
  unfold topBitsView at h
  split at h
  · cases h; omega
  · cases h; omega
  · cases rest with
    | nil => cases h; omega
    | cons byte2 rest => cases h; simp only [List.length_cons]; omega
  · cases h; omega

/-- The parser only moves forward, and over no more bytes than there are. -/
theorem parseView_stopPos {k : Bool} {pos p : Nat} {bs : List Byte} (h : stopPos? (parseView k pos bs) = some p) :
    pos ≤ p ∧ p ≤ pos + bs.length := by
  cases bs with
  | nil => cases h; exact ⟨Nat.le_refl _, Nat.le_refl _⟩
  | cons tag rest =>
    simp only [parseView] at h
    rw [List.length_cons]
    split at h
    · split at h
      · cases h; simp only [List.length_cons]; omega
      · cases h; omega
    · split at h
      · split at h
        · cases h; simp only [List.length_cons]; omega
        · cases h; omega
      · split at h
        · split at h
          · cases h; omega
          · split at h
            · cases h; omega
            · cases h; omega
        · have := topBitsView_stopPos h
          omega

/-- R61: a parse at a cursor inside its buffer stops at a cursor inside the buffer, and not before where it began. -/
theorem parseChunk_stopPos {c : Cursor} {p : Nat} (hwf : Memory.wf c.ibuf = true) (hpos : c.pos ≤ Memory.size c.ibuf)
    (h : stopPos? (parseChunk c) = some p) : c.pos ≤ p ∧ p ≤ Memory.size c.ibuf := by
  obtain ⟨ibuf, pos⟩ := c
  obtain ⟨bs, rfl⟩ := Memory.wf_ofBytes hwf
  rw [parseChunk_ofBytes] at h
  have hstop := parseView_stopPos h
  simp only [Memory.ofBytes_size] at hpos ⊢
  rw [List.length_drop] at hstop
  omega

/-- An item's meaning moves neither the cursor nor the input. -/
theorem exec_next_cursor {i : Instr} {s t : State} (h : exec i s = .next t) : cursorOf t = cursorOf s := by
  obtain ⟨_, _, p, rfl⟩ | ⟨n, _, _, rfl⟩ | ⟨_, rfl⟩ := exec_next_cases h
  · rfl
  · rfl
  · rfl

theorem fetchAndExec_next_cursor {s t : State} (h : fetchAndExec s = .next t) :
    t.ibuf = s.ibuf ∧ stopPos? (parseChunk (cursorOf s)) = some t.dec.pos := by
  unfold fetchAndExec at h
  cases hp : parseChunk (cursorOf s) with
  | item i pos =>
    simp only [hp] at h
    obtain ⟨hbuf, hpos⟩ := Cursor.mk.inj (exec_next_cursor h)
    exact ⟨hbuf, congrArg some hpos.symm⟩
  | failed f pos => rw [hp] at h; cases h; exact ⟨rfl, rfl⟩
  | outside a => rw [hp] at h; cases h

theorem decNext_next_cursor {s t : State} (h : decNext s = .next t) :
    t.ibuf = s.ibuf ∧ (t.dec.pos = s.dec.pos ∨ stopPos? (parseChunk (cursorOf s)) = some t.dec.pos) := by
  unfold decNext at h
  split at h
  · unfold pullPixel at h
    split at h
    · cases h; exact ⟨rfl, .inl rfl⟩
    · exact (fetchAndExec_next_cursor h).imp_right .inr
  · cases h; exact ⟨rfl, .inl rfl⟩
  · cases h; exact ⟨rfl, .inl rfl⟩
  · cases h

/-- R24: from a sound state DEC_NEXT keeps the input and moves the cursor forward inside it. -/
theorem decNext_cursor_forward {s t : State} (hi : Inv s) (h : decNext s = .next t) :
    s.dec.pos ≤ t.dec.pos ∧ t.dec.pos ≤ Memory.size t.ibuf ∧ t.ibuf = s.ibuf := by
  obtain ⟨hbuf, hpos | hstop⟩ := decNext_next_cursor h
  · rw [hbuf, hpos]; exact ⟨Nat.le_refl _, hi.pos_le, rfl⟩
  · obtain ⟨hle, hsize⟩ := parseChunk_stopPos (c := cursorOf s) hi.ibuf_wf hi.pos_le hstop
    rw [hbuf]; exact ⟨hle, hsize, rfl⟩

/-- R263: an operation of ENC leaves DEC's side as it is. -/
theorem runOp_enc_keeps_dec {op : HostOp} {s t : State} (hop : op.agent = some .enc) (h : runOp op s = .next t) :
    t.dec = s.dec ∧ t.ibuf = s.ibuf := by
  obtain ⟨r, _, rfl⟩ := (runOp_confinedTo hop).next_cases h
  exact ⟨rfl, rfl⟩

/-- R263: an operation of DEC leaves ENC as it is. -/
theorem runOp_dec_keeps_enc {op : HostOp} {s t : State} (hop : op.agent = some .dec) (h : runOp op s = .next t) :
    t.enc = s.enc := by
  obtain ⟨r, _, rfl⟩ := (runOp_confinedTo hop).next_cases h
  rfl

theorem runOp_cursor_forward {op : HostOp} {s t : State} (hi : Inv s) (hns : op.isStart = false)
    (h : runOp op s = .next t) : s.dec.pos ≤ t.dec.pos ∧ t.dec.pos ≤ Memory.size t.ibuf ∧ t.ibuf = s.ibuf := by
  match hop : op.agent with
  | some .dec =>
    cases op with
    | decNext => exact decNext_cursor_forward hi h
    | decStart => cases hns
    | encStart | encPixel | encEnd | hash | parseChunk | serChunk | bytesToPix | pixToBytes => cases hop
  | some .enc =>
    obtain ⟨hdec, hbuf⟩ := runOp_enc_keeps_dec hop h
    rw [hdec, hbuf]; exact ⟨Nat.le_refl _, hi.pos_le, rfl⟩
  | none =>
    obtain ⟨v, rfl⟩ := runOp_pure_next hop h
    exact ⟨Nat.le_refl _, hi.pos_le, rfl⟩

theorem runOp_output_extends {op : HostOp} {s t : State} (hns : op.isStart = false) (h : runOp op s = .next t) :
    Memory.Extends s.enc.obuf t.enc.obuf := by
  match hop : op.agent with
  | some .dec => rw [runOp_dec_keeps_enc hop h]; exact .refl _
  | some .enc => exact runOp_enc_extends hop hns h
  | none =>
    obtain ⟨v, rfl⟩ := runOp_pure_next hop h
    exact .refl _

/-- Settles O55: the cursor stays or goes where the parser stopped, and the output is extended by appends. -/
theorem buffersOnlyMoveForward : Obligations.BuffersOnlyMoveForward := by
  intro s t op hi hns h
  obtain ⟨hle, hsize, hbuf⟩ := runOp_cursor_forward hi hns h
  have hout := runOp_output_extends hns h
  exact ⟨hle, hsize, hbuf, hout.size_le, fun _ ha => hout.read_old hi.obuf_wf ha⟩

end Sys2Proof.Machine
end

section
/-! The cursor on a buffer of HOST's bytes (R61 to R66), at every position and past the end (log entry 16). -/

namespace Sys2Proof.Machine

/-- Settles O9: on a canonical buffer both primitives test the bytes left before they read. -/
theorem cursorPrimitivesAreBoundsChecked : Obligations.CursorPrimitivesAreBoundsChecked := by
  intro bs pos n hpos
  simp only [readFixed_ofBytes, peekFixed_ofBytes, List.length_drop]
  constructor
  · intro hshort
    have hleft : bs.length - pos < n := by omega
    exact ⟨if_pos hleft, if_pos hleft⟩
  · intro hfits
    have hleft : ¬ bs.length - pos < n := by omega
    exact ⟨if_neg hleft, if_neg hleft⟩

/-- No byte is left at a position past the end, so the parser sees an empty input there. -/
theorem parseChunk_pastEnd {bs : List Byte} {pos : Nat} (h : bs.length < pos) :
    parseChunk ⟨Memory.ofBytes bs, pos⟩ = .failed .endOfInput pos := by
  rw [parseChunk_ofBytes, List.drop_eq_nil_of_le h.le, parseView]

/-- Settles O57: the parser's view is empty past the end, and HOST's request hands its failure back. -/
theorem positionPastTheEndIsEndOfInput : Obligations.PositionPastTheEndIsEndOfInput := fun _ _ s h =>
  ⟨parseChunk_pastEnd h, parseForHost_failed (parseChunk_pastEnd h) s⟩

end Sys2Proof.Machine
end

section
/-! The integers of the header record (R69): a word is the number whose four base-256 digits are its bytes, the most
significant first. -/

namespace Sys2Proof.Machine

/-- The weighted sum fits 32 bits, so `be32` does not wrap. -/
theorem be32_toNat (b0 b1 b2 b3 : Byte) :
    (be32 b0 b1 b2 b3).toNat = b0.toNat * 2 ^ 24 + b1.toNat * 2 ^ 16 + b2.toNat * 2 ^ 8 + b3.toNat := by
  have h0 := b0.isLt
  have h1 := b1.isLt
  have h2 := b2.isLt
  have h3 := b3.isLt
  rw [be32, BitVec.toNat_ofNat, Nat.mod_eq_of_lt (by omega)]

/-- Dividing the sum by a weight and keeping eight bits gives back the digit of that weight. -/
theorem toBe32_be32 (b0 b1 b2 b3 : Byte) : toBe32 (be32 b0 b1 b2 b3) = [b0, b1, b2, b3] := by
  have h0 := b0.isLt
  have h1 := b1.isLt
  have h2 := b2.isLt
  have h3 := b3.isLt
  have hsum := be32_toNat b0 b1 b2 b3
  simp only [toBe32, List.cons.injEq, and_true, ← BitVec.toNat_inj, BitVec.toNat_ofNat]
  omega

/-- The four digits of a word add up to the word again. -/
theorem be32_toBe32 (w : Word32) :
    be32 (BitVec.ofNat 8 (w.toNat / 2 ^ 24)) (BitVec.ofNat 8 (w.toNat / 2 ^ 16)) (BitVec.ofNat 8 (w.toNat / 2 ^ 8))
      (BitVec.ofNat 8 w.toNat) = w := by
  have hw := w.isLt
  apply BitVec.eq_of_toNat_eq
  simp only [be32_toNat, BitVec.toNat_ofNat]
  omega

/-- Settles O7: `be32` is the sum without a wrap, `to_be32` takes its digits, and the record begins with those of width
and of height. -/
theorem headerIntegersAreBigEndian : Obligations.HeaderIntegersAreBigEndian :=
  ⟨fun b0 b1 b2 b3 => ⟨be32_toNat b0 b1 b2 b3, toBe32_be32 b0 b1 b2 b3⟩,
   fun w => ⟨_, _, _, _, rfl, be32_toBe32 w⟩,
   fun _ => ⟨rfl, rfl⟩⟩

end Sys2Proof.Machine
end

section
/-! No read outside the buffer (R65). The model's one fault is such a read, and only the parser on the session's input and
on HOST's own buffer could make it. Both buffers are canonical, and there the parser makes none; nothing else in an operation
can fault, from any state. -/

namespace Sys2Proof.Machine

/-- The outcome is a next state or a refusal. -/
def NeverFaults (o : Result) : Prop := ∀ f, o ≠ .fault f

/-! ### The rules -/

theorem neverFaults_next (s : State) : NeverFaults (.next s) := fun _ => nofun
theorem neverFaults_refused (r : Refusal) : NeverFaults (.refused r) := fun _ => nofun

theorem NeverFaults.andThen {o : Result} {k : State → Result} (ho : NeverFaults o) (hk : ∀ s, NeverFaults (k s)) :
    NeverFaults (andThen o k) := by
  cases o with
  | next s => exact hk s
  | fault f => exact absurd rfl (ho f)
  | refused r => exact neverFaults_refused r

theorem NeverFaults.ite {c : Prop} [Decidable c] {o o' : Result} (h : NeverFaults o) (h' : NeverFaults o') :
    NeverFaults (if c then o else o') := by
  split
  · exact h
  · exact h'

/-! ### The operations of DEC -/

theorem parseChunk_ne_outside {c : Cursor} (hwf : Memory.wf c.ibuf = true) (a : Nat) : parseChunk c ≠ .outside a := by
  obtain ⟨ibuf, pos⟩ := c
  obtain ⟨bs, rfl⟩ := Memory.wf_ofBytes hwf
  rw [parseChunk_ofBytes]
  exact parseView_ne_outside false pos _ a

theorem exec_neverFaults (i : Instr) (s : State) : NeverFaults (exec i s) := by
  cases hwf : i.wellFormed with
  | false => rw [exec_illFormed hwf]; exact neverFaults_refused _
  | true => obtain ⟨t, ht⟩ := exec_wf_next hwf s; rw [ht]; exact neverFaults_next t

theorem fetchAndExec_neverFaults {s : State} (hwf : Memory.wf s.ibuf = true) : NeverFaults (fetchAndExec s) := by
  unfold fetchAndExec
  cases hp : parseChunk (cursorOf s) with
  | item i pos => exact exec_neverFaults i _
  | failed f pos => exact neverFaults_next _
  | outside a => exact absurd hp (parseChunk_ne_outside hwf a)

theorem decNext_neverFaults {s : State} (hwf : Memory.wf s.ibuf = true) : NeverFaults (decNext s) := by
  unfold decNext
  cases s.dec.dstatus with
  | idle => exact neverFaults_refused _
  | active => exact .ite (neverFaults_next _) (fetchAndExec_neverFaults hwf)
  | done => exact neverFaults_next _
  | fault f => exact neverFaults_next _

/-- DEC_START reads the buffer it has just been handed. -/
theorem decStart_neverFaults (input : List Byte) (s : State) : NeverFaults (decStart input s) := by
  rw [decStart_eq]
  refine .ite (neverFaults_next _) (.ite (neverFaults_next _) ?_)
  cases parseHeader ((input.drop 4).take 10) with
  | some h => exact neverFaults_next _
  | none => exact neverFaults_next _

/-! ### The operations of ENC, which read no buffer -/

theorem emitChunk_neverFaults (i : Instr) (s : State) : NeverFaults (emitChunk i s) := by
  unfold emitChunk
  split
  · exact neverFaults_next _
  · exact neverFaults_refused _

theorem flushRun_neverFaults (s : State) : NeverFaults (flushRun s) :=
  (emitChunk_neverFaults _ s).andThen fun _ => neverFaults_next _

theorem encodeRepeat_neverFaults (p : Pixel) (s : State) : NeverFaults (encodeRepeat p s) :=
  (NeverFaults.ite (flushRun_neverFaults _) (neverFaults_next _)).andThen fun _ => neverFaults_next _

theorem encodeNew_neverFaults (p : Pixel) (s : State) : NeverFaults (encodeNew p s) :=
  (NeverFaults.ite (emitChunk_neverFaults _ _) (emitChunk_neverFaults _ _)).andThen fun _ => neverFaults_next _

theorem encodeDiffering_neverFaults (p : Pixel) (s : State) : NeverFaults (encodeDiffering p s) :=
  (NeverFaults.ite (flushRun_neverFaults s) (neverFaults_next s)).andThen (encodeNew_neverFaults p)

theorem encPixel_neverFaults (p : Pixel) (s : State) : NeverFaults (encPixel p s) := by
  unfold encPixel
  cases s.enc.estatus with
  | idle => exact neverFaults_refused _
  | active =>
    exact .ite (neverFaults_next _) (.ite (encodeRepeat_neverFaults p _) (encodeDiffering_neverFaults p _))
  | done => exact neverFaults_refused _
  | fault f => exact neverFaults_next _

theorem encEnd_neverFaults (s : State) : NeverFaults (encEnd s) := by
  unfold encEnd
  cases s.enc.estatus with
  | idle => exact neverFaults_refused _
  | active => exact .ite (neverFaults_next _) (neverFaults_next _)
  | done => exact neverFaults_refused _
  | fault f => exact neverFaults_next _

/-! ### The pure functions, and every step -/

/-- HOST's own buffer is canonical, whatever the position. -/
theorem parseForHost_neverFaults (input : List Byte) (pos : Nat) (s : State) :
    NeverFaults (parseForHost ⟨Memory.ofBytes input, pos⟩ s) := by
  unfold parseForHost
  cases hp : parseChunk ⟨Memory.ofBytes input, pos⟩ with
  | item i pos => exact neverFaults_next _
  | failed f pos => exact neverFaults_next _
  | outside a => exact absurd hp (parseChunk_ne_outside (Memory.ofBytes_wf input) a)

theorem serForHost_neverFaults (i : Instr) (s : State) : NeverFaults (serForHost i s) := by
  cases hwf : i.wellFormed with
  | false => rw [serForHost_illFormed hwf]; exact neverFaults_refused _
  | true => rw [serForHost_wf hwf]; exact neverFaults_next _

/-- A canonical input buffer is all that an operation needs. -/
theorem runOp_neverFaults (op : HostOp) {s : State} (hwf : Memory.wf s.ibuf = true) : NeverFaults (runOp op s) := by
  cases op with
  | decStart input => exact decStart_neverFaults input s
  | decNext => exact decNext_neverFaults hwf
  | encPixel p => exact encPixel_neverFaults p s
  | encEnd => exact encEnd_neverFaults s
  | parseChunk input pos => exact parseForHost_neverFaults input pos s
  | serChunk i => exact serForHost_neverFaults i s
  | encStart | hash | bytesToPix | pixToBytes => exact neverFaults_next _

theorem step_neverFaults {s : State} (hwf : Memory.wf s.ibuf = true) : NeverFaults (step s) := by
  unfold step
  split
  · exact neverFaults_next s
  · exact runOp_neverFaults _ hwf

/-- Settles O49: the input buffer of a sound state is canonical. -/
theorem noReadLeavesTheBuffer : Obligations.NoReadLeavesTheBuffer := fun _ f hi => step_neverFaults hi.ibuf_wf f

end Sys2Proof.Machine
end

section
/-! The header record (R92): the integers of width and height come back by the digits of R69, and the two bytes after them
stand as they are. -/

namespace Sys2Proof.Machine

theorem serHeader_length (h : Header) : (serHeader h).length = 10 := rfl

theorem parseHeader_serHeader (h : Header) : parseHeader (serHeader h) = some h := by
  simp only [serHeader, toBe32, List.cons_append, List.nil_append, parseHeader, be32_toBe32]

/-- Every ten bytes are a record: each of its integers is made of the four bytes it serializes to. -/
theorem exists_parseHeader_of_length {bs : List Byte} (hlen : bs.length = 10) :
    ∃ h, parseHeader bs = some h ∧ serHeader h = bs := by
  match bs, hlen with
  | [w0, w1, w2, w3, h0, h1, h2, h3, channels, colorspace], _ =>
    refine ⟨⟨be32 w0 w1 w2 w3, be32 h0 h1 h2 h3, channels, colorspace⟩, rfl, ?_⟩
    simp only [serHeader, toBe32_be32, List.cons_append, List.nil_append]

/-- Settles O8: both integers of the record round-trip, and no byte of it is dropped or checked. -/
theorem headerRecordRoundTrips : Obligations.HeaderRecordRoundTrips :=
  ⟨fun h => ⟨serHeader_length h, parseHeader_serHeader h, rfl⟩, fun _ => exists_parseHeader_of_length⟩

end Sys2Proof.Machine
end

section
/-! What each first byte selects (R103): the three whole-byte tags by an equation of `parseView` each, and every other byte by
its two top bits, which name the quarter of the byte range it lies in. -/

namespace Sys2Proof.Machine

/-! ### The whole-byte tags -/

theorem parseView_rgb (k : Bool) (pos : Nat) (r g b : Byte) (rest : List Byte) :
    parseView k pos (0xFE :: r :: g :: b :: rest) = .item (.rgb r g b) (pos + 4) := rfl

theorem parseView_rgba (k : Bool) (pos : Nat) (r g b a : Byte) (rest : List Byte) :
    parseView k pos (0xFF :: r :: g :: b :: a :: rest) = .item (.rgba r g b a) (pos + 5) := rfl

theorem parseView_endMarker {rest : List Byte} (h : rest.take 7 = Config.endTail) (k : Bool) (pos : Nat) :
    parseView k pos (0 :: rest) = .item .endMarker (pos + 1) := if_pos h

/-- With the setting of decision D9 a short look ahead counts as any other mismatch. -/
theorem parseView_zero_of_not_tail {rest : List Byte} (h : rest.take 7 ≠ Config.endTail) (pos : Nat) :
    parseView false pos (0 :: rest) = .item (.index 0) (pos + 1) :=
  (if_neg h).trans (if_neg fun hshort => Bool.false_ne_true hshort.2)

/-! ### The tags told apart by their two top bits -/

theorem parseView_topBits {tag : Byte} (hlo : 1 ≤ tag.toNat) (hhi : tag.toNat ≤ 0xFD) (k : Bool) (pos : Nat)
    (rest : List Byte) : parseView k pos (tag :: rest) = topBitsView tag (pos + 1) rest := by
  have hrgb : tag ≠ 0xFE := by rintro rfl; exact absurd hhi (by decide)
  have hrgba : tag ≠ 0xFF := by rintro rfl; exact absurd hhi (by decide)
  have hzero : tag ≠ 0x00 := by rintro rfl; exact absurd hlo (by decide)
  exact (if_neg hrgb).trans ((if_neg hrgba).trans (if_neg hzero))

theorem bitField_topBits (tag : Byte) : bitField tag 7 6 = tag.toNat / 64 := by
  have hlt := tag.isLt
  simp only [bitField]
  omega

theorem topBitsView_index {tag : Byte} (h : tag.toNat ≤ 0x3F) (pos : Nat) (rest : List Byte) :
    topBitsView tag pos rest = .item (.index tag) pos := by
  have htop : bitField tag 7 6 = 0 := by rw [bitField_topBits]; omega
  simp only [topBitsView, htop]

theorem topBitsView_diff {tag : Byte} (hlo : 0x40 ≤ tag.toNat) (hhi : tag.toNat ≤ 0x7F) (pos : Nat) (rest : List Byte) :
    topBitsView tag pos rest = .item (diffOfTag tag) pos := by
  have htop : bitField tag 7 6 = 1 := by rw [bitField_topBits]; omega
  simp only [topBitsView, htop]

theorem topBitsView_luma {tag : Byte} (hlo : 0x80 ≤ tag.toNat) (hhi : tag.toNat ≤ 0xBF) (pos : Nat) (byte2 : Byte)
    (rest : List Byte) : topBitsView tag pos (byte2 :: rest) = .item (lumaOfBytes tag byte2) (pos + 1) := by
  have htop : bitField tag 7 6 = 2 := by rw [bitField_topBits]; omega
  simp only [topBitsView, htop]

theorem topBitsView_run {tag : Byte} (h : 0xC0 ≤ tag.toNat) (pos : Nat) (rest : List Byte) :
    topBitsView tag pos rest = .item (runOfTag tag) pos := by
  have hlt := tag.isLt
  have htop : bitField tag 7 6 = 3 := by rw [bitField_topBits]; omega
  simp only [topBitsView, htop]

/-- R148: the length of a run chunk does not wrap. -/
theorem runOfTag_eq (tag : Byte) : ∃ n : Byte, n.toNat = tag.toNat % 64 + 1 ∧ runOfTag tag = .run n := by
  refine ⟨_, ?_, rfl⟩
  simp only [bitField, BitVec.toNat_ofNat]
  omega

/-- Settles O6: a clause for each whole-byte tag, and one for each quarter of the other bytes. -/
theorem firstByteSelectsTheFormat : Obligations.FirstByteSelectsTheFormat := by
  intro tag rest
  simp only [decode_eq_view]
  refine ⟨?marker, ?zero, ?index, ?diff, ?luma, ?run, ?rgb, ?rgba⟩
  case marker => rintro rfl htail; exact parseView_endMarker htail false 0
  case zero => rintro rfl htail; exact parseView_zero_of_not_tail htail 0
  case index =>
    intro hlo hhi
    rw [parseView_topBits hlo (by omega), topBitsView_index hhi]
  case diff =>
    intro hlo hhi
    rw [parseView_topBits (by omega) (by omega), topBitsView_diff hlo hhi]
    exact ⟨_, _, _, rfl⟩
  case luma =>
    intro hlo hhi hrest
    obtain ⟨byte2, rest, rfl⟩ := List.exists_cons_of_ne_nil hrest
    rw [parseView_topBits (by omega) (by omega), topBitsView_luma hlo hhi]
    exact ⟨_, _, _, rfl⟩
  case run =>
    intro hlo hhi
    obtain ⟨n, hn, hrun⟩ := runOfTag_eq tag
    rw [parseView_topBits (by omega) hhi, topBitsView_run hlo, hrun]
    exact ⟨n, hn, rfl⟩
  case rgb =>
    rintro rfl hlen
    match rest, hlen with
    | r :: g :: b :: rest, _ => exact ⟨r, g, b, parseView_rgb false 0 r g b rest⟩
  case rgba =>
    rintro rfl hlen
    match rest, hlen with
    | r :: g :: b :: a :: rest, _ => exact ⟨r, g, b, a, parseView_rgba false 0 r g b a rest⟩

/-- Settles O1: seven closed words, each evaluated by the model. -/
theorem wordsOfTheFormatsDecode : Obligations.WordsOfTheFormatsDecode := by
  unfold Obligations.WordsOfTheFormatsDecode
  decide

end Sys2Proof.Machine
end

section
/-! The pixel cache (R130 to R134): the 8-bit hash against the unbounded sum, and what a probe finds after a store. -/

namespace Sys2Proof.Machine

/-! ### The hash -/

/-- The sum that R130 wraps at every step is the unbounded sum, wrapped once. -/
theorem hashSum_toNat (p : Pixel) :
    (hashSum p).toNat = (3 * p.r.toNat + 5 * p.g.toNat + 7 * p.b.toNat + 11 * p.a.toNat) % 2 ^ 8 := by
  simp [hashSum, Config.hashMulR, Config.hashMulG, Config.hashMulB, Config.hashMulA, Nat.mul_comm]

/-- Settles O11: 64 slots divide the 256 values of a byte, so the slot does not see the wraparound. -/
theorem hashIsTheUnwrappedSum : Obligations.HashIsTheUnwrappedSum := by
  intro p
  have hdvd : Config.cacheSlots ∣ 2 ^ 8 := by decide
  calc (pixelHash p).val
      = (3 * p.r.toNat + 5 * p.g.toNat + 7 * p.b.toNat + 11 * p.a.toNat) % 2 ^ 8 % Config.cacheSlots := by
        rw [← hashSum_toNat, pixelHash]
    _ = (3 * p.r.toNat + 5 * p.g.toNat + 7 * p.b.toNat + 11 * p.a.toNat) % 64 := Nat.mod_mod_of_dvd _ hdvd

/-! ### A probe after a store -/

/-- A probe of the slot that was written finds the pixel stored last. -/
theorem cacheProbe_store_same {p q : Pixel} (h : pixelHash q = pixelHash p) (cache : PixelCache) :
    cacheProbe (cacheStore cache q) p = (pixelHash p, decide (q = p)) := by
  rw [cacheProbe, cacheStore_get, if_pos h.symm]

/-- A store in another slot is not seen by the probe. -/
theorem cacheProbe_store_other {p q : Pixel} (h : pixelHash q ≠ pixelHash p) (cache : PixelCache) :
    cacheProbe (cacheStore cache q) p = cacheProbe cache p := by
  rw [cacheProbe, cacheStore_get, if_neg h.symm, cacheProbe]

theorem cacheProbe_store_self (cache : PixelCache) (p : Pixel) :
    cacheProbe (cacheStore cache p) p = (pixelHash p, true) := by
  simp [cacheProbe_store_same rfl]

/-- Settles O12: the store's own clause, the hit, and the second store in another slot or in the same one. -/
theorem storedPixelHitsUntilOverwritten : Obligations.StoredPixelHitsUntilOverwritten := by
  intro cache p q
  refine ⟨cacheStore_get cache p, cacheProbe_store_self cache p, ?other, ?same⟩
  case other =>
    intro hslot
    rw [cacheProbe_store_other hslot, cacheProbe_store_self]
  case same =>
    intro hslot hne
    rw [cacheProbe_store_same hslot]
    exact decide_eq_false hne

end Sys2Proof.Machine
end

section
/-! The chunk codec (R140 to R159): what `SerChunk` wrote is parsed back, every input that is long enough begins with the
encoding of one chunk, and the rest of the parser's answers are the fault table. -/

namespace Sys2Proof.Machine

open Sys2Proof.Laws

/-! ### The biased fields -/

theorem wrap8_natCast (n : Nat) : wrap8 n = BitVec.ofNat 8 n := BitVec.ofInt_natCast 8 n

/-- `wrap8` of a byte's own number is that byte. -/
theorem wrap8_eq_of_toNat {n : Int} {b : Byte} (h : n = b.toNat) : wrap8 n = b := by
  rw [h, wrap8_natCast, BitVec.ofNat_toNat, BitVec.setWidth_eq]

theorem diff_wf_of_ranges {dr dg db : Int} (h : (-2 ≤ dr ∧ dr ≤ 1) ∧ (-2 ≤ dg ∧ dg ≤ 1) ∧ (-2 ≤ db ∧ db ≤ 1)) :
    (Instr.diff dr dg db).wellFormed = true := by
  simpa only [Instr.wellFormed, inRange, Bool.and_eq_true, decide_eq_true_eq, and_assoc] using h

theorem luma_wf_of_ranges {dg drDg dbDg : Int}
    (h : (-32 ≤ dg ∧ dg ≤ 31) ∧ (-8 ≤ drDg ∧ drDg ≤ 7) ∧ (-8 ≤ dbDg ∧ dbDg ≤ 7)) :
    (Instr.luma dg drDg dbDg).wellFormed = true := by
  simpa only [Instr.wellFormed, inRange, Bool.and_eq_true, decide_eq_true_eq, and_assoc] using h

theorem run_wf_of_range {n : Byte} (h : 1 ≤ n.toNat ∧ n.toNat ≤ 62) : (Instr.run n).wellFormed = true := by
  simpa only [Instr.wellFormed, Bool.and_eq_true, decide_eq_true_eq] using h

theorem index_wf_iff (idx : Byte) : (Instr.index idx).wellFormed = true ↔ idx.toNat ≤ 63 := decide_eq_true_iff

/-- Settles O2: every format's range is well-formed, and its bytes hold the fields with their biases added. -/
theorem serializerWritesTheFormats : Obligations.SerializerWritesTheFormats := by
  refine ⟨fun _ _ _ => rfl, fun _ _ _ _ => rfl, ?index, ?diff, ?luma, ?run, rfl⟩
  case index => exact fun idx h => serChunk_wf ((index_wf_iff idx).mpr h)
  case diff =>
    intro dr dg db
    rw [serChunk_wf (diff_wf_of_ranges (by omega)), encode, ← wrap8_natCast]
    congr 3
    omega
  case luma =>
    intro dg drDg dbDg
    rw [serChunk_wf (luma_wf_of_ranges (by omega)), encode, ← wrap8_natCast, ← wrap8_natCast]
    congr 3
    · omega
    · congr 2
      omega
  case run =>
    intro n
    have hn := n.isLt
    have hlen : (BitVec.ofNat 8 (n.val + 1)).toNat = n.val + 1 := by rw [BitVec.toNat_ofNat]; omega
    rw [serChunk_wf (run_wf_of_range (by omega)), encode]
    congr 2
    apply BitVec.eq_of_toNat_eq
    rw [runByte_toNat (by omega) (by omega), hlen, BitVec.toNat_ofNat]
    omega

/-! ### From the fields to the bytes and back -/

theorem parseView_encode_diff {dr dg db : Int} (h : (Instr.diff dr dg db).wellFormed = true) (k : Bool) (pos : Nat)
    (after : List Byte) :
    parseView k pos (encode (.diff dr dg db) ++ after) = .item (.diff dr dg db) (pos + 1) := by
  obtain ⟨⟨_, _⟩, ⟨_, _⟩, _, _⟩ := diff_ranges h
  have htag := wrap8_toNat (n := 0x40 + (dr + 2) * 16 + (dg + 2) * 4 + (db + 2)) (by omega) (by omega)
  simp only [encode, List.singleton_append]
  generalize wrap8 _ = tag at htag ⊢
  rw [parseView_topBits (by omega) (by omega), topBitsView_diff (by omega) (by omega)]
  simp only [diffOfTag, unbias, bitField, Parsed.item.injEq, Instr.diff.injEq, and_true]
  omega

theorem parseView_encode_luma {dg drDg dbDg : Int} (h : (Instr.luma dg drDg dbDg).wellFormed = true) (k : Bool)
    (pos : Nat) (after : List Byte) :
    parseView k pos (encode (.luma dg drDg dbDg) ++ after) = .item (.luma dg drDg dbDg) (pos + 2) := by
  obtain ⟨⟨_, _⟩, ⟨_, _⟩, _, _⟩ := luma_ranges h
  have htag := wrap8_toNat (n := 0x80 + (dg + 32)) (by omega) (by omega)
  have hbyte2 := wrap8_toNat (n := (drDg + 8) * 16 + (dbDg + 8)) (by omega) (by omega)
  simp only [encode, List.cons_append, List.nil_append]
  generalize wrap8 (0x80 + _) = tag at htag ⊢
  generalize wrap8 _ = byte2 at hbyte2 ⊢
  rw [parseView_topBits (by omega) (by omega), topBitsView_luma (by omega) (by omega)]
  simp only [lumaOfBytes, unbias, bitField, Parsed.item.injEq, Instr.luma.injEq, and_true]
  omega

theorem parseView_encode_run {n : Byte} (h : (Instr.run n).wellFormed = true) (k : Bool) (pos : Nat)
    (after : List Byte) : parseView k pos (encode (.run n) ++ after) = .item (.run n) (pos + 1) := by
  obtain ⟨hlo, hhi⟩ := run_range h
  have htag := runByte_toNat hlo hhi
  obtain ⟨m, hm, hrun⟩ := runOfTag_eq (0xC0 + (n - 1))
  have hmn : m = n := BitVec.eq_of_toNat_eq (by omega)
  rw [encode, List.singleton_append, parseView_topBits (by omega) (by omega), topBitsView_run (by omega), hrun, hmn]

theorem encode_diffOfTag {tag : Byte} (hlo : 0x40 ≤ tag.toNat) (hhi : tag.toNat ≤ 0x7F) :
    (diffOfTag tag).wellFormed = true ∧ encode (diffOfTag tag) = [tag] := by
  constructor
  · apply diff_wf_of_ranges
    simp only [unbias, bitField]
    omega
  · rw [diffOfTag, encode, wrap8_eq_of_toNat]
    simp only [unbias, bitField]
    omega

theorem encode_lumaOfBytes {tag : Byte} (hlo : 0x80 ≤ tag.toNat) (hhi : tag.toNat ≤ 0xBF) (byte2 : Byte) :
    (lumaOfBytes tag byte2).wellFormed = true ∧ encode (lumaOfBytes tag byte2) = [tag, byte2] := by
  have hlt := byte2.isLt
  constructor
  · apply luma_wf_of_ranges
    simp only [unbias, bitField]
    omega
  · rw [lumaOfBytes, encode, wrap8_eq_of_toNat (b := tag), wrap8_eq_of_toNat (b := byte2)]
    · simp only [unbias, bitField]
      omega
    · simp only [unbias, bitField]
      omega

theorem encode_runOfTag {tag : Byte} (hlo : 0xC0 ≤ tag.toNat) (hhi : tag.toNat ≤ 0xFD) :
    (runOfTag tag).wellFormed = true ∧ encode (runOfTag tag) = [tag] := by
  obtain ⟨n, hn, hrun⟩ := runOfTag_eq tag
  have hbyte : (0xC0 : Byte) + (n - 1) = tag := by
    apply BitVec.eq_of_toNat_eq
    rw [runByte_toNat (by omega) (by omega)]
    omega
  rw [hrun, encode, hbyte]
  exact ⟨run_wf_of_range (by omega), rfl⟩

/-! ### Parsing what was written -/

/-- R158 on the parser's view. -/
theorem parseView_encode {i : Instr} (h : i.wellFormed = true) (hend : i ≠ .endMarker) {after : List Byte}
    (htail : ¬(i = .index 0 ∧ after.take 7 = Config.endTail)) (pos : Nat) :
    parseView false pos (encode i ++ after) = .item i (pos + (encode i).length) := by
  cases i with
  | rgb r g b => exact parseView_rgb false pos r g b after
  | rgba r g b a => exact parseView_rgba false pos r g b a after
  | endMarker => exact absurd rfl hend
  | index idx =>
    by_cases hzero : idx = 0
    · subst hzero
      exact parseView_zero_of_not_tail (fun ht => htail ⟨rfl, ht⟩) pos
    · have hidx := (index_wf_iff idx).mp h
      have hpos : idx.toNat ≠ 0 := fun h0 => hzero (BitVec.eq_of_toNat_eq h0)
      rw [encode, List.singleton_append, parseView_topBits (by omega) (by omega), topBitsView_index hidx]
      rfl
  | diff dr dg db => exact parseView_encode_diff h false pos after
  | luma dg drDg dbDg => exact parseView_encode_luma h false pos after
  | run n => exact parseView_encode_run h false pos after

theorem parseView_encode_endMarker (k : Bool) (pos : Nat) (after : List Byte) :
    parseView k pos (encode .endMarker ++ after) = .item .endMarker (pos + 1) :=
  parseView_endMarker (rest := Config.endTail ++ after) rfl k pos

/-- Settles O3: the parser sees exactly the written bytes and those after them, which decide only for Index 0. -/
theorem parseAfterSerialize : Obligations.ParseAfterSerialize := by
  intro i bs before after hser
  obtain ⟨hwf, rfl⟩ := serChunk_some hser
  simp only [parseChunk_ofBytes, List.append_assoc, List.drop_left]
  refine ⟨fun hend htail => parseView_encode hwf hend htail _, ?_, ?_⟩
  · rintro rfl htail
    exact parseView_endMarker htail false _
  · rintro rfl
    exact parseView_encode_endMarker false _ after

/-- An item's encoding, alone in a buffer, is decoded to that item. -/
theorem decode_encode {i : Instr} (h : i.wellFormed = true) : ∃ pos, decode (encode i) = .item i pos := by
  rw [decode_eq_view, ← List.append_nil (encode i)]
  by_cases hend : i = .endMarker
  · subst hend
    exact ⟨_, parseView_encode_endMarker false 0 []⟩
  · have htail : ¬(i = .index 0 ∧ ([] : List Byte).take 7 = Config.endTail) := fun ht => List.cons_ne_nil _ _ ht.2.symm
    exact ⟨_, parseView_encode h hend htail 0⟩

/-- R159: no two items share an encoding. -/
theorem serChunk_injective {i j : Instr} {bs : List Byte} (hi : serChunk i = some bs) (hj : serChunk j = some bs) :
    i = j := by
  obtain ⟨hiwf, rfl⟩ := serChunk_some hi
  obtain ⟨hjwf, heq⟩ := serChunk_some hj
  obtain ⟨p, hp⟩ := decode_encode hiwf
  obtain ⟨q, hq⟩ := decode_encode hjwf
  rw [heq, hq] at hp
  exact (Parsed.item.inj hp).1.symm

/-! ### The fault table, and what every other input begins with -/

/-- The rows of R149 in which a tag has been read and its payload is cut short. -/
def PayloadMissing (tag : Byte) (rest : List Byte) : Prop :=
  (tag = 0xFE ∧ rest.length < 3) ∨ (tag = 0xFF ∧ rest.length < 4) ∨ (0x80 ≤ tag.toNat ∧ tag.toNat ≤ 0xBF ∧ rest = [])

theorem parseView_payloadMissing {tag : Byte} {rest : List Byte} (h : PayloadMissing tag rest) (k : Bool) (pos : Nat) :
    parseView k pos (tag :: rest) = .failed .truncated (pos + 1) := by
  obtain ⟨rfl, hlen⟩ | ⟨rfl, hlen⟩ | ⟨hlo, hhi, rfl⟩ := h
  · match rest, hlen with
    | [], _ | [_], _ | [_, _], _ => rfl
  · match rest, hlen with
    | [], _ | [_], _ | [_, _], _ | [_, _, _], _ => rfl
  · have htop : bitField tag 7 6 = 2 := by rw [bitField_topBits]; omega
    rw [parseView_topBits (by omega) (by omega)]
    simp only [topBitsView, htop]

/-- R103, R149: with its payload there, every tag begins the encoding of a chunk. -/
theorem exists_encode_prefix {tag : Byte} {rest : List Byte} (h : ¬PayloadMissing tag rest) :
    ∃ i after, i.wellFormed = true ∧ i ≠ .endMarker ∧ tag :: rest = encode i ++ after := by
  simp only [PayloadMissing, not_or, not_and, not_lt] at h
  obtain ⟨hrgb, hrgba, hluma⟩ := h
  by_cases hFE : tag = 0xFE
  · match rest, hrgb hFE with
    | r :: g :: b :: after, _ => exact ⟨.rgb r g b, after, rfl, nofun, by rw [hFE]; rfl⟩
  by_cases hFF : tag = 0xFF
  · match rest, hrgba hFF with
    | r :: g :: b :: a :: after, _ => exact ⟨.rgba r g b a, after, rfl, nofun, by rw [hFF]; rfl⟩
  by_cases hindex : tag.toNat ≤ 0x3F
  · exact ⟨.index tag, rest, (index_wf_iff tag).mpr hindex, nofun, rfl⟩
  by_cases hdiff : tag.toNat ≤ 0x7F
  · obtain ⟨hwf, henc⟩ := encode_diffOfTag (by omega) hdiff
    exact ⟨diffOfTag tag, rest, hwf, nofun, by rw [henc]; rfl⟩
  by_cases hbf : tag.toNat ≤ 0xBF
  · obtain ⟨byte2, after, rfl⟩ := List.exists_cons_of_ne_nil (hluma (by omega) hbf)
    obtain ⟨hwf, henc⟩ := encode_lumaOfBytes (by omega) hbf byte2
    exact ⟨lumaOfBytes tag byte2, after, hwf, nofun, by rw [henc]; rfl⟩
  · have hlt := tag.isLt
    have hne_FE : tag.toNat ≠ 0xFE := fun he => hFE (BitVec.eq_of_toNat_eq he)
    have hne_FF : tag.toNat ≠ 0xFF := fun he => hFF (BitVec.eq_of_toNat_eq he)
    obtain ⟨hwf, henc⟩ := encode_runOfTag (tag := tag) (by omega) (by omega)
    exact ⟨runOfTag tag, rest, hwf, nofun, by rw [henc]; rfl⟩

/-- Everything the parser answers on a tag with its payload: the end marker, or the chunk whose encoding stands there. -/
theorem parseView_of_payload {tag : Byte} {rest : List Byte} (h : ¬PayloadMissing tag rest) (pos : Nat) :
    parseView false pos (tag :: rest) = .item .endMarker (pos + 1) ∨
    ∃ i after, i.wellFormed = true ∧ tag :: rest = encode i ++ after ∧
      parseView false pos (tag :: rest) = .item i (pos + (encode i).length) := by
  obtain ⟨i, after, hwf, hend, heq⟩ := exists_encode_prefix h
  rw [heq]
  by_cases htail : i = .index 0 ∧ after.take 7 = Config.endTail
  · obtain ⟨rfl, htail⟩ := htail
    exact .inl (parseView_endMarker htail false pos)
  · exact .inr ⟨i, after, hwf, rfl, parseView_encode hwf hend htail pos⟩

theorem encode_length_pos (i : Instr) : 0 < (encode i).length := by cases i <;> exact Nat.succ_pos _

/-- R159 on the parser's view: a chunk that was parsed is well-formed, and its encoding is what was consumed. -/
theorem parseView_item_chunk {pos pos' : Nat} {bs : List Byte} {i : Instr} (h : parseView false pos bs = .item i pos')
    (hend : i ≠ .endMarker) :
    i.wellFormed = true ∧ pos' = pos + (encode i).length ∧ ∃ after, bs = encode i ++ after := by
  cases bs with
  | nil => cases h
  | cons tag rest =>
    by_cases hmissing : PayloadMissing tag rest
    · rw [parseView_payloadMissing hmissing] at h
      cases h
    · obtain hmarker | ⟨j, after, hwf, heq, hparse⟩ := parseView_of_payload hmissing pos
      · rw [hmarker] at h
        exact absurd (Parsed.item.inj h).1.symm hend
      · obtain ⟨rfl, rfl⟩ := Parsed.item.inj (hparse.symm.trans h)
        exact ⟨hwf, rfl, after, heq⟩

/-- Settles O4: the bytes at the cursor begin with the parsed chunk's encoding, and encodings are decoded uniquely. -/
theorem serializeAfterParse : Obligations.SerializeAfterParse := by
  refine ⟨fun bs pos i pos' hparse hend => ?_, fun _ _ _ => serChunk_injective⟩
  rw [parseChunk_ofBytes] at hparse
  obtain ⟨hwf, rfl, after, hbytes⟩ := parseView_item_chunk hparse hend
  have hlen := congrArg List.length hbytes
  simp only [List.length_drop, List.length_append] at hlen
  have hpos := encode_length_pos i
  refine ⟨by omega, by omega, ?_⟩
  rw [serChunk_wf hwf, hbytes, Nat.add_sub_cancel_left, List.take_left]

/-- Settles O5: a missing payload is Truncated, and any other tag begins an item. -/
theorem parserFaultTable : Obligations.ParserFaultTable := by
  intro bs pos _
  rw [parseChunk_ofBytes]
  cases bs.drop pos with
  | nil => rfl
  | cons tag rest =>
    dsimp only
    split
    case isTrue hmissing => exact parseView_payloadMissing hmissing false pos
    case isFalse hpayload =>
      obtain hmarker | ⟨i, _, hwf, _, hparse⟩ := parseView_of_payload hpayload pos
      · exact ⟨_, _, hmarker, rfl⟩
      · exact ⟨_, _, hparse, hwf⟩

/-! ### The setting PEEK_FAIL_IS_FAULT -/

theorem take_ne_endTail_of_short {rest : List Byte} (h : rest.length < 7) : rest.take 7 ≠ Config.endTail := by
  intro htail
  have hlen : (rest.take 7).length = 7 := congrArg List.length htail
  rw [List.length_take] at hlen
  omega

/-- The setting is read only after a 00 tag with fewer than seven bytes left. -/
theorem parseView_setting_irrelevant {tag : Byte} {rest : List Byte} (h : tag = 0 → 7 ≤ rest.length) (k : Bool)
    (pos : Nat) : parseView k pos (tag :: rest) = parseView false pos (tag :: rest) := by
  by_cases hzero : tag = 0
  · have hlong : ¬rest.length < 7 := Nat.not_lt.mpr (h hzero)
    simp only [parseView, hlong, false_and]
  · simp only [parseView, if_neg hzero]

theorem parseView_true_zero_short {rest : List Byte} (h : rest.length < 7) (pos : Nat) :
    parseView true pos (0 :: rest) = .failed .truncated (pos + 1) :=
  (if_neg (take_ne_endTail_of_short h)).trans (if_pos ⟨h, rfl⟩)

/-- Settles O10: the parser's view reads the setting in one branch, and there each value gives its own answer. -/
theorem peekSettingsAgreeOnLongInput : Obligations.PeekSettingsAgreeOnLongInput := by
  intro bs pos
  simp only [parseChunkWith_ofBytes]
  cases bs.drop pos with
  | nil => exact ⟨fun _ => rfl, nofun⟩
  | cons tag rest =>
    constructor
    · intro hlong
      exact parseView_setting_irrelevant (fun hzero => hlong rest (by rw [hzero])) true pos
    · rintro _ ⟨rfl, rfl⟩ hshort
      exact ⟨parseView_true_zero_short hshort pos, parseView_zero_of_not_tail (take_ne_endTail_of_short hshort) pos⟩

/-! ### Refusals -/

/-- Settles O24: the two laws of `exec`, one for each answer of the well-formedness check. -/
theorem onlyIllFormedItemsAreRefused : Obligations.OnlyIllFormedItemsAreRefused := fun _ s =>
  ⟨fun hill => exec_illFormed hill s, fun hwf => exec_wf_next hwf s⟩

end Sys2Proof.Machine
end

section
/-! What `ParseChunk` can answer on any buffer, canonical or not (R141 to R149): one fact for each stage of the parser. A
failure after the tag is Truncated at the byte after the tag, and what the tag and its payload give is well-formed. -/

namespace Sys2Proof.Machine

/-- What the stages after the tag can answer, with the cursor at `pos` just after the tag. -/
def SoundAfterTag (pos : Nat) : Parsed → Prop
  | .item i pos' => i.wellFormed = true ∧ pos ≤ pos'
  | .failed f pos' => f = .truncated ∧ pos' = pos
  | .outside _ => True

theorem readFixed_got_pos {c c' : Cursor} {n : Nat} {bs : List Byte} (h : readFixed c n = .got bs c') :
    c'.pos = c.pos + n := by
  unfold readFixed at h
  split at h
  · cases h
  · split at h
    · cases h; rfl
    · cases h

theorem readFixed_got_le {c c' : Cursor} {n : Nat} {bs : List Byte} (h : readFixed c n = .got bs c') : c.pos ≤ c'.pos := by
  rw [readFixed_got_pos h]
  exact Nat.le_add_right _ _

theorem readFixed_not_short {c : Cursor} {n : Nat} (h : ¬c.remaining < n) : readFixed c n ≠ .short := by
  unfold readFixed
  rw [if_neg h]
  split
  · exact nofun
  · exact nofun

theorem parseRgb_sound (c : Cursor) : SoundAfterTag c.pos (parseRgb c) := by
  unfold parseRgb
  split
  next hread => exact ⟨rfl, readFixed_got_le hread⟩
  next => trivial
  next => exact ⟨rfl, rfl⟩
  next => trivial

theorem parseRgba_sound (c : Cursor) : SoundAfterTag c.pos (parseRgba c) := by
  unfold parseRgba
  split
  next hread => exact ⟨rfl, readFixed_got_le hread⟩
  next => trivial
  next => exact ⟨rfl, rfl⟩
  next => trivial

theorem parseLuma_sound {tag : Byte} (hlo : 0x80 ≤ tag.toNat) (hhi : tag.toNat ≤ 0xBF) (c : Cursor) :
    SoundAfterTag c.pos (parseLuma tag c) := by
  unfold parseLuma
  split
  next byte2 _ hread => exact ⟨(encode_lumaOfBytes hlo hhi byte2).1, readFixed_got_le hread⟩
  next => trivial
  next => exact ⟨rfl, rfl⟩
  next => trivial

/-- The two top bits place the tag in its quarter of the byte range; FE and FF were taken before (R104). -/
theorem parseByTopBits_sound {tag : Byte} (h : tag.toNat ≤ 0xFD) (c : Cursor) :
    SoundAfterTag c.pos (parseByTopBits tag c) := by
  unfold parseByTopBits
  rw [bitField_topBits]
  split
  next => exact ⟨(index_wf_iff tag).mpr (by omega), Nat.le_refl _⟩
  next => exact ⟨(encode_diffOfTag (by omega) (by omega)).1, Nat.le_refl _⟩
  next => exact parseLuma_sound (by omega) (by omega) c
  next hnot0 hnot1 hnot2 =>
    have hquarter : tag.toNat / 64 ≠ 0 ∧ tag.toNat / 64 ≠ 1 ∧ tag.toNat / 64 ≠ 2 := ⟨hnot0, hnot1, hnot2⟩
    exact ⟨(encode_runOfTag (by omega) h).1, Nat.le_refl _⟩

theorem parseZeroTag_sound (c : Cursor) : SoundAfterTag c.pos (parseZeroTag false 0 c) := by
  have hindex : SoundAfterTag c.pos (parseByTopBits 0 c) := parseByTopBits_sound (by decide) c
  unfold parseZeroTag
  split
  next =>
    split
    · exact ⟨rfl, Nat.le_refl _⟩
    · exact hindex
  next => exact hindex
  next => trivial

theorem parseAfterTag_sound (tag : Byte) (c : Cursor) : SoundAfterTag c.pos (parseAfterTag false tag c) := by
  unfold parseAfterTag
  split
  · exact parseRgb_sound c
  · split
    · exact parseRgba_sound c
    · split
      next hzero => rw [hzero]; exact parseZeroTag_sound c
      next hFE hFF _ =>
        have hne_FE : tag.toNat ≠ 0xFE := fun he => hFE (BitVec.eq_of_toNat_eq he)
        have hne_FF : tag.toNat ≠ 0xFF := fun he => hFF (BitVec.eq_of_toNat_eq he)
        have hlt := tag.isLt
        exact parseByTopBits_sound (by omega) c

/-- Everything `ParseChunk` can answer, short of a read outside the buffer: EndOfInput with no byte left, or a tag that is
read and then what the stages after it give. -/
theorem parseChunk_cases (c : Cursor) :
    (c.remaining = 0 ∧ parseChunk c = .failed .endOfInput c.pos) ∨
    (c.remaining ≠ 0 ∧ SoundAfterTag (c.pos + 1) (parseChunk c)) := by
  by_cases hleft : c.remaining = 0
  · exact .inl ⟨hleft, if_pos hleft⟩
  · refine .inr ⟨hleft, ?_⟩
    rw [parseChunk, parseChunkWith, if_neg hleft]
    split
    next tag c' hread => exact readFixed_got_pos hread ▸ parseAfterTag_sound tag c'
    next => trivial
    next hshort => exact absurd hshort (readFixed_not_short (by omega))
    next => trivial

/-- A parsed item is well-formed, was there to be read, and moves the cursor. -/
theorem parseChunk_item {c : Cursor} {i : Instr} {pos : Nat} (h : parseChunk c = .item i pos) :
    i.wellFormed = true ∧ c.pos < Memory.size c.ibuf ∧ c.pos < pos := by
  obtain ⟨_, hend⟩ | ⟨hleft, hsound⟩ := parseChunk_cases c
  · rw [h] at hend
    cases hend
  · rw [h] at hsound
    obtain ⟨hwf, hpos⟩ := hsound
    rw [Cursor.remaining] at hleft
    exact ⟨hwf, by omega, hpos⟩

/-- R149: the two failures, and where each leaves the cursor. -/
theorem parseChunk_failed {c : Cursor} {f : Failure} {pos : Nat} (h : parseChunk c = .failed f pos) :
    (f = .endOfInput ∧ pos = c.pos) ∨ (f = .truncated ∧ pos = c.pos + 1) := by
  obtain ⟨_, hend⟩ | ⟨_, hsound⟩ := parseChunk_cases c
  · exact .inl (Parsed.failed.inj (h.symm.trans hend))
  · rw [h] at hsound
    exact .inr hsound

end Sys2Proof.Machine
end

section
/-! The meanings of the seven items (R172 to R179). Five of them end in the common update, whose effect `yields_producePixel`
states once; RUN and END are single updates. -/

namespace Sys2Proof.Machine

open Sys2Proof.Laws

/-- R179: the common update yields its pixel. -/
theorem yields_producePixel (p : Pixel) (s : State) : Yields p s (producePixel p s) where
  dlast := rfl
  dcache := cacheStore_get s.dec.dcache p
  answers := rfl
  drun := rfl
  pos := rfl
  dhdr := rfl
  dstatus := rfl
  enc := rfl
  ibuf _ := rfl
  size := rfl
  pending := rfl
  freeCount := rfl

/-- `add8` is addition of bytes, whatever integer is added (R10). -/
theorem add8_eq_add (x : Byte) (d : Int) : add8 x d = x + BitVec.ofInt 8 d := by
  rw [add8, wrap8, BitVec.ofInt_add, BitVec.ofInt_natCast, BitVec.ofNat_toNat, BitVec.setWidth_eq]

theorem cacheFetch_slot (cache : PixelCache) (j : Fin Config.cacheSlots) :
    cacheFetch cache (BitVec.ofNat 8 j.val) = some cache[j.val] := by
  have hj : j.val < 64 := j.isLt
  have hidx : (BitVec.ofNat 8 j.val).toNat = j.val := by rw [BitVec.toNat_ofNat]; omega
  simp only [cacheFetch_eq, hidx, j.isLt, dif_pos]

theorem exec_index_slot (j : Fin Config.cacheSlots) (s : State) :
    exec (.index (BitVec.ofNat 8 j.val)) s = .next (producePixel s.dec.dcache[j.val] s) := by
  simp only [exec, execIndex, cacheFetch_slot]

theorem exec_run {n : Byte} (h : (Instr.run n).wellFormed = true) (s : State) :
    exec (.run n) s = .next (repeatPixel (n - 1) s) := ifWellFormed_true h _

/-- Settles O16: RGB is the common update with the last alpha. -/
theorem rgbKeepsTheLastAlpha : Obligations.RgbKeepsTheLastAlpha := fun _ _ _ s => ⟨_, rfl, yields_producePixel _ s⟩

/-- Settles O17: RGBA is the common update with the pixel as given. -/
theorem rgbaYieldsItsPixel : Obligations.RgbaYieldsItsPixel := fun _ _ _ _ s => ⟨_, rfl, yields_producePixel _ s⟩

/-- Settles O18: the fetch answers the slot, which the common update then yields. -/
theorem indexYieldsTheSlot : Obligations.IndexYieldsTheSlot := fun j s =>
  ⟨_, exec_index_slot j s, yields_producePixel _ s⟩

/-- Settles O19: the common update with the shifted pixel, whose channels are sums of bytes. -/
theorem diffAddsWrappingDeltas : Obligations.DiffAddsWrappingDeltas := by
  intro dr dg db s hwf
  simp only [← add8_eq_add]
  exact ⟨_, ifWellFormed_true hwf _, yields_producePixel _ s⟩

/-- Settles O20: the ranges of the fields bound the two sums; the rest is DIFF's argument. -/
theorem lumaAddsDeltasRelativeToGreen : Obligations.LumaAddsDeltasRelativeToGreen := by
  intro dg drDg dbDg s hwf
  obtain ⟨⟨_, _⟩, ⟨_, _⟩, _, _⟩ := luma_ranges hwf
  simp only [← add8_eq_add]
  exact ⟨by omega, _, ifWellFormed_true hwf _, yields_producePixel _ s⟩

/-- Settles O21: a length of 1 to 62 is well-formed, and RUN is then one update. -/
theorem runRepeatsTheLastPixel : Obligations.RunRepeatsTheLastPixel := fun _ s hlo hhi =>
  ⟨_, exec_run (run_wf_of_range ⟨hlo, hhi⟩) s, rfl⟩

/-- Settles O22: END is two updates and tests nothing. -/
theorem endMarkerEndsTheSession : Obligations.EndMarkerEndsTheSession := fun _ => ⟨_, rfl, rfl⟩

/-- Settles O23: each of the three updates a meaning can be keeps what the others write. -/
theorem itemsChangeOnlyTheirRegisters : Obligations.ItemsChangeOnlyTheirRegisters := by
  intro i s t h
  obtain ⟨hend, hrun, p, rfl⟩ | ⟨n, rfl, _, rfl⟩ | ⟨rfl, rfl⟩ := exec_next_cases h
  · have hnot : ¬((∃ n, i = .run n) ∨ i = .endMarker) := by
      rintro (⟨n, hn⟩ | hmarker)
      · exact hrun n hn
      · exact hend hmarker
    exact ⟨rfl, rfl, rfl, rfl, rfl, fun _ => rfl, fun _ => rfl, fun _ => rfl, fun _ => rfl,
      fun hi => absurd hi hnot, _, rfl⟩
  · exact ⟨rfl, rfl, rfl, rfl, rfl, fun _ => rfl, fun _ => rfl, fun hn => absurd rfl (hn n), fun _ => rfl,
      fun _ => ⟨rfl, rfl⟩, _, rfl⟩
  · exact ⟨rfl, rfl, rfl, rfl, rfl, fun _ => rfl, fun _ => rfl, fun _ => rfl, fun he => absurd rfl he,
      fun _ => ⟨rfl, rfl⟩, _, rfl⟩

end Sys2Proof.Machine
end

section
/-! DEC_START (R170): one equation for each of its four outcomes, each over the state with the start fills. -/

namespace Sys2Proof.Machine

/-- A record is read from exactly ten bytes. -/
theorem parseHeader_some_length {bs : List Byte} {h : Header} (hp : parseHeader bs = some h) : bs.length = 10 := by
  unfold parseHeader at hp
  split at hp
  · rfl
  · cases hp

theorem parseHeader_short {bs : List Byte} (h : bs.length < 10) : parseHeader bs = none := by
  cases hp : parseHeader bs with
  | none => rfl
  | some _ => exact absurd (parseHeader_some_length hp) h.ne

theorem decStart_short {input : List Byte} (h : input.length < 4) (s : State) :
    decStart input s = failDecStart .truncated 0 (startDec input s) := by rw [decStart_eq, if_pos h]

theorem decStart_wrongMagic {input : List Byte} (h4 : ¬input.length < 4) (hm : input.take 4 ≠ Config.magic) (s : State) :
    decStart input s = failDecStart .invalidMagic 4 (startDec input s) := by rw [decStart_eq, if_neg h4, if_pos hm]

theorem decStart_shortRecord {input : List Byte} (h4 : ¬input.length < 4) (hm : ¬input.take 4 ≠ Config.magic)
    (h14 : input.length < 14) (s : State) : decStart input s = failDecStart .truncated 4 (startDec input s) := by
  have hlen : ((input.drop 4).take 10).length < 10 := by rw [List.length_take, List.length_drop]; omega
  rw [decStart_eq, if_neg h4, if_neg hm, parseHeader_short hlen]

theorem decStart_record {input : List Byte} (h4 : ¬input.length < 4) (hm : ¬input.take 4 ≠ Config.magic)
    (h14 : ¬input.length < 14) (s : State) :
    ∃ h, serHeader h = (input.drop 4).take 10 ∧ decStart input s = openDecSession h 14 (startDec input s) := by
  have hlen : ((input.drop 4).take 10).length = 10 := by rw [List.length_take, List.length_drop]; omega
  obtain ⟨h, hparse, hser⟩ := exists_parseHeader_of_length hlen
  exact ⟨h, hser, by rw [decStart_eq, if_neg h4, if_neg hm, hparse]⟩

/-- DEC_START either raises or opens the session at the first chunk, always over the start fills. -/
theorem decStart_fails_or_opens (input : List Byte) (s : State) :
    (∃ f pos, decStart input s = failDecStart f pos (startDec input s)) ∨
    ∃ h, decStart input s = openDecSession h 14 (startDec input s) := by
  by_cases h4 : input.length < 4
  · exact .inl ⟨_, _, decStart_short h4 s⟩
  by_cases hm : input.take 4 ≠ Config.magic
  · exact .inl ⟨_, _, decStart_wrongMagic h4 hm s⟩
  by_cases h14 : input.length < 14
  · exact .inl ⟨_, _, decStart_shortRecord h4 hm h14 s⟩
  · obtain ⟨h, _, heq⟩ := decStart_record h4 hm h14 s
    exact .inr ⟨h, heq⟩

/-- Settles O27: each outcome writes the status, the cursor and the header over the start fills. -/
theorem decStartChecksTheFraming : Obligations.DecStartChecksTheFraming := by
  intro input s
  have hread := Memory.read_ofBytes input
  have hsize := Memory.ofBytes_size input
  have hfill := cacheFill_get Config.decCacheInit
  split
  next h4 => exact ⟨_, decStart_short h4 s, hread, hsize, hfill, rfl, rfl, rfl, rfl, rfl, rfl, rfl⟩
  next h4 =>
    split
    next hm => exact ⟨_, decStart_wrongMagic h4 hm s, hread, hsize, hfill, rfl, rfl, rfl, rfl, rfl, rfl, rfl⟩
    next hm =>
      split
      next h14 => exact ⟨_, decStart_shortRecord h4 hm h14 s, hread, hsize, hfill, rfl, rfl, rfl, rfl, rfl, rfl, rfl⟩
      next h14 =>
        obtain ⟨h, hser, heq⟩ := decStart_record h4 hm h14 s
        exact ⟨_, heq, hread, hsize, hfill, rfl, rfl, rfl, rfl, rfl, rfl, hser, rfl⟩

end Sys2Proof.Machine
end

section
/-! DEC_NEXT (R171, R172, R182): one equation for each way it can go, and from them what a step runs, what a run in progress
and a failing parse do, and that the header is not used. -/

namespace Sys2Proof.Machine

/-! ### The ways of DEC_NEXT -/

theorem step_of_pending {op : HostOp} {rest : List HostOp} {s : State} (h : s.pending = op :: rest) :
    step s = runOp op (s.asked rest) := by
  rw [step, h]
  rfl

theorem run_succ_of_step {n : Nat} {s t : State} (h : step s = .next t) :
    Sys2Proof.core.run (n + 1) s = Sys2Proof.core.run n t := (run_succ n s).trans (by rw [h]; rfl)

theorem run_asked_of_runOp {n : Nat} {op : HostOp} {rest : List HostOp} {s t : State}
    (h : runOp op (s.asked rest) = .next t) :
    Sys2Proof.core.run (n + 1) (s.asked (op :: rest)) = Sys2Proof.core.run n t :=
  run_succ_of_step ((step_asked op rest s).trans h)

theorem decNext_replay {s : State} (ha : s.dec.dstatus = .active) (hrun : 0 < s.dec.drun.toNat) :
    decNext s = .next (repeatPixel (s.dec.drun - 1) s) := by simp only [decNext, ha, pullPixel, hrun, if_true]

theorem decNext_fetch {s : State} (ha : s.dec.dstatus = .active) (hrun : s.dec.drun = 0) : decNext s = fetchAndExec s := by
  have hnot : ¬0 < s.dec.drun.toNat := by rw [hrun]; decide
  simp only [decNext, ha, pullPixel, hnot, if_false]

theorem decNext_item {s : State} {i : Instr} {pos : Nat} (ha : s.dec.dstatus = .active) (hrun : s.dec.drun = 0)
    (hp : parseChunk (cursorOf s) = .item i pos) : decNext s = exec i (setPos pos s) := by
  rw [decNext_fetch ha hrun]
  simp only [fetchAndExec, hp]

theorem decNext_failed {s : State} {f : Failure} {pos : Nat} (ha : s.dec.dstatus = .active) (hrun : s.dec.drun = 0)
    (hp : parseChunk (cursorOf s) = .failed f pos) : decNext s = .next (raise .dec f (setPos pos s)) := by
  rw [decNext_fetch ha hrun]
  simp only [fetchAndExec, hp]

theorem decNext_outside {s : State} {a : Nat} (ha : s.dec.dstatus = .active) (hrun : s.dec.drun = 0)
    (hp : parseChunk (cursorOf s) = .outside a) : decNext s = .fault (.outsideBuffer a) := by
  rw [decNext_fetch ha hrun]
  simp only [fetchAndExec, hp]

theorem decNext_done {s : State} (h : s.dec.dstatus = .done) : decNext s = .next (answer .done s) := by
  simp only [decNext, h]

theorem setStatus_dec_self {s : State} {st : Status} (h : s.dec.dstatus = st) : setStatus .dec st s = s := by
  subst h
  rfl

/-- R182: raising the same failure again writes no register. -/
theorem decNext_fault {s : State} {f : Failure} (h : s.dec.dstatus = .fault f) :
    decNext s = .next (answer (.failed f) s) := by simp only [decNext, h, raise, setStatus_dec_self h]

theorem decNext_idle {s : State} (h : s.dec.dstatus = .idle) : decNext s = .refused .decNextInIdle := by
  simp only [decNext, h]

theorem drun_pos_of_ne_zero {n : Byte} (h : n ≠ 0) : 0 < n.toNat :=
  Nat.pos_of_ne_zero fun hzero => h (BitVec.eq_of_toNat_eq hzero)

theorem drun_pred_toNat {n : Byte} (h : 0 < n.toNat) : (n - 1).toNat + 1 = n.toNat := by bv_omega

/-- Settles O25: the request is taken off, and DEC_NEXT executes what it has parsed. -/
theorem stepRunsTheDecodedItem : Obligations.StepRunsTheDecodedItem := by
  intro s rest i pos hpending ha hrun hp
  rw [step_of_pending hpending]
  exact decNext_item (s := s.asked rest) ha hrun hp

/-- Settles O28: the replay of a run. -/
theorem runInProgressIsReplayed : Obligations.RunInProgressIsReplayed := fun _ ha hrun =>
  ⟨_, decNext_replay ha hrun, drun_pred_toNat hrun, rfl⟩

/-- Settles O30: the parser's two failures, each raised with the cursor where the parser left it. -/
theorem parserFailureFaultsTheDecoder : Obligations.ParserFailureFaultsTheDecoder := fun s _ _ ha hrun hp =>
  ⟨decNext_failed (s := s) ha hrun hp, parseChunk_failed hp⟩

/-- Settles O31: one equation for each status but ACTIVE. -/
theorem decNextOutsideActive : Obligations.DecNextOutsideActive := fun _ =>
  ⟨decNext_done, fun _ => decNext_fault, decNext_idle⟩

/-! ### A run from its fetch to its last pixel -/

/-- R171: after a pixel with the run counter set to `k`, the next `k` calls replay that pixel. -/
theorem run_repeats (k : Nat) (rest : List HostOp) {n : Byte} {s : State} (ha : s.dec.dstatus = .active)
    (hn : n.toNat = k) :
    Sys2Proof.core.run k ((repeatPixel n s).asked (List.replicate k .decNext ++ rest)) =
      .next { s with
        pending := rest
        dec := { s.dec with drun := 0 }
        answers := s.answers ++ List.replicate (k + 1) (.pixel s.dec.dlast) } := by
  induction k generalizing n s with
  | zero =>
    have hzero : n = 0 := BitVec.eq_of_toNat_eq hn
    rw [hzero]
    exact run_zero _
  | succ k ih =>
    have hpos : 0 < n.toNat := by omega
    have hpred := drun_pred_toNat hpos
    have hanswers : (repeatPixel n s).answers ++ List.replicate (k + 1) (Answer.pixel s.dec.dlast) =
        s.answers ++ List.replicate (k + 2) (Answer.pixel s.dec.dlast) := List.append_assoc _ _ _
    have hrest := ih (n := n - 1) (s := repeatPixel n s) ha (by omega)
    rw [repeatPixel_dec_dlast, hanswers] at hrest
    have hcall (ops : List HostOp) :
        runOp .decNext ((repeatPixel n s).asked ops) = .next (repeatPixel (n - 1) ((repeatPixel n s).asked ops)) :=
      decNext_replay (s := (repeatPixel n s).asked ops) ha hpos
    exact (run_asked_of_runOp (hcall _)).trans hrest

/-- Settles O29: the fetch yields the first pixel, and the replay the others. -/
theorem runYieldsLengthPixels : Obligations.RunYieldsLengthPixels := by
  intro s length pos rest ha hrun hp
  obtain ⟨hwf, _, _⟩ := parseChunk_item hp
  obtain ⟨hlo, _⟩ := Laws.run_range hwf
  have hfetch (ops : List HostOp) :
      runOp .decNext (s.asked ops) = .next (repeatPixel (length - 1) (setPos pos (s.asked ops))) :=
    (decNext_item (s := s.asked ops) ha hrun hp).trans (exec_run hwf _)
  refine ⟨hfetch s.pending, ?_⟩
  have hpred := drun_pred_toNat hlo
  have hrest := run_repeats (length - 1).toNat rest (s := setPos pos s) ha rfl
  rw [hpred, setPos_dec_dlast, ← hrun] at hrest
  rw [← hpred] at hrest ⊢
  exact (run_asked_of_runOp (hfetch _)).trans hrest

/-! ### The header is not used -/

/-- The same machine with another header in `dhdr`. -/
def withHeader (h : Header) (s : State) : State := { s with dec := { s.dec with dhdr := h } }

/-- The operation does the same with any header in `dhdr`, and keeps that header. -/
def IgnoresHeader (k : State → Result) : Prop :=
  ∀ h s, k (withHeader h s) = andThen (k s) fun t => .next (withHeader h t)

theorem ignoresHeader_ifWellFormed (i : Instr) {f : State → State} (hf : ∀ h s, f (withHeader h s) = withHeader h (f s)) :
    IgnoresHeader fun s => ifWellFormed i (f s) := by
  intro h s
  cases hwf : i.wellFormed with
  | true => simp only [ifWellFormed_true hwf, hf, andThen_next]
  | false => simp only [ifWellFormed_false hwf, andThen_refused]

theorem ignoresHeader_exec (i : Instr) : IgnoresHeader (exec i) := by
  cases i with
  | rgb r g b => exact fun _ _ => rfl
  | rgba r g b a => exact fun _ _ => rfl
  | endMarker => exact fun _ _ => rfl
  | index idx =>
    intro h s
    have hcache : (withHeader h s).dec.dcache = s.dec.dcache := rfl
    simp only [exec, execIndex, hcache]
    cases cacheFetch s.dec.dcache idx with
    | some p => rfl
    | none => rfl
  | diff dr dg db => exact ignoresHeader_ifWellFormed _ fun _ _ => rfl
  | luma dg drDg dbDg => exact ignoresHeader_ifWellFormed _ fun _ _ => rfl
  | run n => exact ignoresHeader_ifWellFormed _ fun _ _ => rfl

theorem ignoresHeader_fetchAndExec : IgnoresHeader fetchAndExec := by
  intro h s
  have hcursor : cursorOf (withHeader h s) = cursorOf s := rfl
  simp only [fetchAndExec, hcursor]
  cases parseChunk (cursorOf s) with
  | item i pos => exact ignoresHeader_exec i h (setPos pos s)
  | failed f pos => rfl
  | outside a => rfl

theorem ignoresHeader_decNext : IgnoresHeader decNext := by
  intro h s
  have hstatus : (withHeader h s).dec.dstatus = s.dec.dstatus := rfl
  have hdrun : (withHeader h s).dec.drun = s.dec.drun := rfl
  simp only [decNext, hstatus]
  cases s.dec.dstatus with
  | idle => rfl
  | active =>
    simp only [pullPixel, hdrun]
    split
    · rfl
    · exact ignoresHeader_fetchAndExec h s
  | done => rfl
  | fault f => rfl

/-- Put the header a state holds in its place, and the equation says that the header is kept. -/
theorem IgnoresHeader.keeps {k : State → Result} (hk : IgnoresHeader k) {s t : State} (h : k s = .next t) :
    t.dec.dhdr = s.dec.dhdr := by
  have hsame : (.next t : Result) = .next (withHeader s.dec.dhdr t) := by
    have hself := hk s.dec.dhdr s
    rw [h, andThen_next] at hself
    exact h.symm.trans hself
  rw [Host.Outcome.next.inj hsame]
  rfl

/-- Settles O32: both halves are the one equation of `IgnoresHeader`. -/
theorem decNextIgnoresTheHeader : Obligations.DecNextIgnoresTheHeader := by
  intro s t h hnext
  refine ⟨ignoresHeader_decNext.keeps hnext, (ignoresHeader_decNext h s).trans ?_⟩
  rw [show decNext s = .next t from hnext]
  rfl

/-! ### A word placed at the cursor -/

/-- Placed bytes stand at their address, whatever was there. -/
theorem Memory.place_eq (m : Memory) (addr : Nat) (bs : List Byte) :
    ∃ before after, before.length = addr ∧ Memory.place m addr bs = Memory.ofBytes (before ++ bs ++ after) := by
  refine ⟨_, _, ?_, rfl⟩
  rw [List.length_append, List.length_take, List.length_replicate, Memory.bytes_length]
  omega

/-- The marker is read only from a 00 tag before its tail (R144): any other tag begins a chunk. -/
theorem parseView_item_endMarker {pos pos' : Nat} {bs : List Byte} (h : parseView false pos bs = .item .endMarker pos') :
    pos' = pos + 1 ∧ ∃ rest, bs = 0 :: rest ∧ rest.take 7 = Config.endTail := by
  cases bs with
  | nil => cases h
  | cons tag rest =>
    by_cases hmissing : PayloadMissing tag rest
    · rw [parseView_payloadMissing hmissing] at h
      cases h
    obtain ⟨i, after, hwf, hend, heq⟩ := exists_encode_prefix hmissing
    rw [heq] at h ⊢
    by_cases htail : i = .index 0 ∧ after.take 7 = Config.endTail
    · obtain ⟨rfl, htail⟩ := htail
      cases (parseView_endMarker htail false pos).symm.trans h
      exact ⟨rfl, after, rfl, htail⟩
    · exact absurd (Parsed.item.inj ((parseView_encode hwf hend htail pos).symm.trans h)).1 hend

/-- Eight bytes, the length of the longest item, decide what is parsed: neither the position nor the bytes after them matter. -/
theorem parseView_append_of_item {bs : List Byte} {i : Instr} {n : Nat} (hlen : 8 ≤ bs.length)
    (h : parseView false 0 bs = .item i n) (pos : Nat) (after : List Byte) :
    parseView false pos (bs ++ after) = .item i (pos + n) := by
  have htake (rest after' : List Byte) (hrest : 7 ≤ rest.length) : (rest ++ after').take 7 = rest.take 7 :=
    List.take_append_of_le_length hrest
  by_cases hend : i = .endMarker
  · subst hend
    obtain ⟨rfl, rest, rfl, htail⟩ := parseView_item_endMarker h
    exact parseView_endMarker ((htake rest after (Nat.le_of_succ_le_succ hlen)).trans htail) false pos
  · obtain ⟨hwf, rfl, rest, rfl⟩ := parseView_item_chunk h hend
    rw [List.append_assoc, Nat.zero_add]
    refine parseView_encode hwf hend ?_ pos
    rintro ⟨rfl, htail⟩
    rw [htake rest after (Nat.le_of_succ_le_succ hlen)] at htail
    cases h.symm.trans (parseView_endMarker htail false 0)

theorem tableBytes_length (nbits w : Nat) : (tableBytes nbits w).length = 8 := rfl

theorem decodeTableWord_some {nbits w : Nat} {i : Instr} (h : decodeTableWord nbits w = some i) :
    ∃ n, parseView false 0 (tableBytes nbits w) = .item i n := by
  rw [decodeTableWord, decode_eq_view] at h
  cases hp : parseView false 0 (tableBytes nbits w) with
  | item j n => rw [hp] at h; exact ⟨n, by rw [Option.some.inj h]⟩
  | failed f n => rw [hp] at h; cases h
  | outside a => rw [hp] at h; cases h

/-- Settles O26: the placed bytes parse at the cursor as they do alone, and DEC_NEXT executes what it has parsed. -/
theorem stepRunsThePlacedWord : Obligations.StepRunsThePlacedWord := by
  intro s nbits w i hword
  obtain ⟨n, hdecode⟩ := decodeTableWord_some hword
  have hparse : parseChunk (cursorOf (s.withFetchWord nbits w)) = .item i (s.dec.pos + n) := by
    obtain ⟨before, after, hbefore, hplace⟩ := Memory.place_eq s.ibuf s.dec.pos (tableBytes nbits w)
    have hcursor : cursorOf (s.withFetchWord nbits w) = ⟨Memory.ofBytes (before ++ tableBytes nbits w ++ after), s.dec.pos⟩ :=
      congrArg (Cursor.mk · s.dec.pos) hplace
    rw [hcursor, parseChunk_ofBytes, List.append_assoc, List.drop_left' hbefore]
    exact parseView_append_of_item (Nat.le_of_eq (tableBytes_length nbits w).symm) hdecode s.dec.pos after
  obtain ⟨_, _, hforward⟩ := parseChunk_item hparse
  exact ⟨_, hforward, decNext_item (s := (s.withFetchWord nbits w).asked s.pending) rfl rfl hparse⟩

end Sys2Proof.Machine
end

section
/-! Every decode session ends (R183). A session's budget is the most pixels that its run counter and the bytes left can still
give; every call that leaves the session open spends at least one of it, and no call hands out more pixels than it spends. -/

namespace Sys2Proof.Machine

/-- Everything DEC_NEXT can do in ACTIVE when it gives a next state. -/
theorem decNext_active_cases {s t : State} (ha : s.dec.dstatus = .active) (h : decNext s = .next t) :
    (0 < s.dec.drun.toNat ∧ t = repeatPixel (s.dec.drun - 1) s) ∨
    (s.dec.drun = 0 ∧ ∃ i pos, parseChunk (cursorOf s) = .item i pos ∧ exec i (setPos pos s) = .next t) ∨
    (s.dec.drun = 0 ∧ ∃ f pos, t = raise .dec f (setPos pos s)) := by
  by_cases hrun : s.dec.drun = 0
  · cases hp : parseChunk (cursorOf s) with
    | item i pos => exact .inr (.inl ⟨hrun, i, pos, rfl, (decNext_item ha hrun hp).symm.trans h⟩)
    | failed f pos =>
      exact .inr (.inr ⟨hrun, f, pos, Host.Outcome.next.inj (h.symm.trans (decNext_failed ha hrun hp))⟩)
    | outside a => rw [decNext_outside ha hrun hp] at h; cases h
  · have hpos := drun_pos_of_ne_zero hrun
    exact .inl ⟨hpos, Host.Outcome.next.inj (h.symm.trans (decNext_replay ha hpos))⟩

/-- The session is over (R183). -/
def SessionEnded (s : State) : Prop := s.dec.dstatus = .done ∨ ∃ f, s.dec.dstatus = .fault f

/-- R183, one call: the run counter falls, or the cursor moves on, or the session is over. -/
theorem decNext_progress {s t : State} (ha : s.dec.dstatus = .active) (h : decNext s = .next t) :
    (t.dec.drun.toNat + 1 = s.dec.drun.toNat ∧ t.dec.pos = s.dec.pos) ∨
    (s.dec.drun.toNat = 0 ∧ s.dec.pos < t.dec.pos ∧ t.dec.dstatus = .active) ∨ SessionEnded t := by
  obtain ⟨hrun, rfl⟩ | ⟨hrun, i, pos, hp, hexec⟩ | ⟨_, f, pos, rfl⟩ := decNext_active_cases ha h
  · exact .inl ⟨drun_pred_toNat hrun, rfl⟩
  · obtain ⟨_, _, hforward⟩ := parseChunk_item hp
    have hzero : s.dec.drun.toNat = 0 := by rw [hrun]; rfl
    obtain ⟨_, _, p, rfl⟩ | ⟨n, _, _, rfl⟩ | ⟨_, rfl⟩ := exec_next_cases hexec
    · exact .inr (.inl ⟨hzero, hforward, ha⟩)
    · exact .inr (.inl ⟨hzero, hforward, ha⟩)
    · exact .inr (.inr (.inl rfl))
  · exact .inr (.inr (.inr ⟨f, rfl⟩))

/-- The most pixels an open session can still give: the run in progress, and 62 for each byte left. -/
def openBudget (s : State) : Nat := s.dec.drun.toNat + 62 * (Memory.size s.ibuf - s.dec.pos)

/-- The most pixels DEC_NEXT can still give without a new DEC_START. -/
def pixelBudget (s : State) : Nat := if s.dec.dstatus = .active then openBudget s else 0

theorem pixelBudget_active {s : State} (h : s.dec.dstatus = .active) : pixelBudget s = openBudget s := if_pos h
theorem pixelBudget_closed {s : State} (h : s.dec.dstatus ≠ .active) : pixelBudget s = 0 := if_neg h

/-- A decoder that a DEC_START has been asked of, over a canonical buffer. -/
structure DecSession (s : State) : Prop where
  ibuf_wf : Memory.wf s.ibuf = true
  begun : s.dec.dstatus ≠ .idle

theorem DecSession.ended {s : State} (h : DecSession s) (hna : s.dec.dstatus ≠ .active) : SessionEnded s := by
  have hbegun := h.begun
  unfold SessionEnded
  cases hst : s.dec.dstatus with
  | idle => exact absurd hst hbegun
  | active => exact absurd hst hna
  | done => exact .inl rfl
  | fault f => exact .inr ⟨f, rfl⟩

theorem SessionEnded.closed {s : State} (h : SessionEnded s) : s.dec.dstatus ≠ .active ∧ s.dec.dstatus ≠ .idle := by
  obtain hdone | ⟨f, hfault⟩ := h
  · rw [hdone]; exact ⟨nofun, nofun⟩
  · rw [hfault]; exact ⟨nofun, nofun⟩

theorem DecSession.of_ended {s : State} (hwf : Memory.wf s.ibuf = true) (h : SessionEnded s) : DecSession s :=
  ⟨hwf, h.closed.2⟩

/-! ### The pixels among the answers -/

theorem pixelsOf_cons (v : Answer) (vs : List Answer) : pixelsOf (v :: vs) = pixelsOf [v] ++ pixelsOf vs := by
  cases v <;> rfl

theorem pixelsOf_append (us vs : List Answer) : pixelsOf (us ++ vs) = pixelsOf us ++ pixelsOf vs := by
  induction us with
  | nil => rfl
  | cons u us ih => rw [List.cons_append, pixelsOf_cons, pixelsOf_cons u us, ih, List.append_assoc]

theorem pixelsOf_single_length (v : Answer) : (pixelsOf [v]).length ≤ 1 := by
  cases v with
  | pixel p => exact Nat.le_refl 1
  | header | done | failed | complete | slot | item | bytes | pixels => exact Nat.zero_le 1

/-! ### What calls of DEC_NEXT cost -/

/-- `t` is a state of the session after `n` calls from `s`: the pixels handed out are paid for by the budget, and while the
session is open each call has cost at least one. -/
structure Pulled (n : Nat) (s t : State) : Prop where
  session : DecSession t
  answers : ∃ vs, t.answers = s.answers ++ vs ∧ (pixelsOf vs).length + pixelBudget t ≤ pixelBudget s
  calls : t.dec.dstatus = .active → s.dec.dstatus = .active ∧ pixelBudget t + n ≤ pixelBudget s

theorem Pulled.refl {s : State} (h : DecSession s) : Pulled 0 s s :=
  ⟨h, ⟨[], (List.append_nil _).symm, Nat.le_of_eq (Nat.zero_add _)⟩, fun ha => ⟨ha, Nat.le_refl _⟩⟩

theorem Pulled.trans {m n : Nat} {s t u : State} (h : Pulled m s t) (h' : Pulled n t u) : Pulled (m + n) s u := by
  obtain ⟨_, ⟨vs, hvs, hcost⟩, hcalls⟩ := h
  obtain ⟨hsession, ⟨vs', hvs', hcost'⟩, hcalls'⟩ := h'
  refine ⟨hsession, ⟨vs ++ vs', ?_, ?_⟩, fun hu => ?_⟩
  · rw [hvs', hvs, List.append_assoc]
  · rw [pixelsOf_append, List.length_append]
    omega
  · obtain ⟨ht, hn⟩ := hcalls' hu
    obtain ⟨hs, hm⟩ := hcalls ht
    exact ⟨hs, by omega⟩

/-- A call that leaves the session open, at a cost of one or more. -/
theorem Pulled.of_open {s t : State} {v : Answer} (hs : DecSession s) (ha : s.dec.dstatus = .active)
    (hta : t.dec.dstatus = .active) (hbuf : t.ibuf = s.ibuf) (hans : t.answers = s.answers ++ [v])
    (hcost : openBudget t < openBudget s) : Pulled 1 s t := by
  have hv := pixelsOf_single_length v
  rw [← pixelBudget_active ha, ← pixelBudget_active hta] at hcost
  exact ⟨⟨hbuf ▸ hs.ibuf_wf, hta.trans_ne nofun⟩, ⟨[v], hans, by omega⟩, fun _ => ⟨ha, hcost⟩⟩

/-- A call that hands out no pixel and leaves the session over. -/
theorem Pulled.of_ended {s t : State} {v : Answer} (hs : DecSession s) (ht : SessionEnded t) (hbuf : t.ibuf = s.ibuf)
    (hans : t.answers = s.answers ++ [v]) (hv : pixelsOf [v] = []) : Pulled 1 s t := by
  refine ⟨.of_ended (hbuf ▸ hs.ibuf_wf) ht, ⟨[v], hans, ?_⟩, fun hta => absurd hta ht.closed.1⟩
  rw [hv, pixelBudget_closed ht.closed.1]
  exact Nat.zero_le _

theorem decNext_exists_next {s : State} (h : DecSession s) : ∃ t, decNext s = .next t := by
  cases hst : s.dec.dstatus with
  | idle => exact absurd hst h.begun
  | done => exact ⟨_, decNext_done hst⟩
  | fault f => exact ⟨_, decNext_fault hst⟩
  | active =>
    by_cases hrun : s.dec.drun = 0
    · cases hp : parseChunk (cursorOf s) with
      | item i pos =>
        obtain ⟨hwf, _, _⟩ := parseChunk_item hp
        rw [decNext_item hst hrun hp]
        exact exec_wf_next hwf _
      | failed f pos => exact ⟨_, decNext_failed hst hrun hp⟩
      | outside a => exact absurd hp (parseChunk_ne_outside h.ibuf_wf a)
    · exact ⟨_, decNext_replay hst (drun_pos_of_ne_zero hrun)⟩

/-- A fetched item costs the 62 of the byte it was read from, and a Run puts at most 61 of them back. -/
theorem exec_pulled {s t : State} {i : Instr} {pos : Nat} (hs : DecSession s) (ha : s.dec.dstatus = .active)
    (hp : parseChunk (cursorOf s) = .item i pos) (h : exec i (setPos pos s) = .next t) :
    Pulled 1 s t := by
  obtain ⟨_, hsize, hforward⟩ := parseChunk_item hp
  have hbefore : s.dec.pos < Memory.size s.ibuf := hsize
  have hmoved : s.dec.pos < pos := hforward
  obtain ⟨_, _, p, rfl⟩ | ⟨n, _, hwf, rfl⟩ | ⟨_, rfl⟩ := exec_next_cases h
  · refine .of_open hs ha ha rfl rfl ?_
    simp only [openBudget, producePixel_dec_drun, producePixel_dec_pos, producePixel_ibuf, setPos_dec_drun, setPos_dec_pos,
      setPos_ibuf]
    omega
  · obtain ⟨hlo, hhi⟩ := Laws.run_range hwf
    have hpred := drun_pred_toNat hlo
    refine .of_open hs ha ha rfl rfl ?_
    simp only [openBudget, repeatPixel_dec_drun, repeatPixel_dec_pos, repeatPixel_ibuf, setPos_dec_pos, setPos_ibuf]
    omega
  · exact .of_ended hs (.inl rfl) rfl rfl rfl

/-- R183, one call from any state of a session. -/
theorem decNext_pulled {s t : State} (hs : DecSession s) (h : decNext s = .next t) : Pulled 1 s t := by
  cases hst : s.dec.dstatus with
  | idle => exact absurd hst hs.begun
  | done =>
    cases (decNext_done hst).symm.trans h
    exact .of_ended hs (.inl hst) rfl rfl rfl
  | fault f =>
    cases (decNext_fault hst).symm.trans h
    exact .of_ended hs (.inr ⟨f, hst⟩) rfl rfl rfl
  | active =>
    obtain ⟨hrun, rfl⟩ | ⟨_, i, pos, hp, hexec⟩ | ⟨_, f, pos, rfl⟩ := decNext_active_cases hst h
    · have hpred := drun_pred_toNat hrun
      refine .of_open hs hst hst rfl rfl ?_
      simp only [openBudget, repeatPixel_dec_drun, repeatPixel_dec_pos, repeatPixel_ibuf]
      omega
    · exact exec_pulled hs hst hp hexec
    · exact .of_ended hs (.inr ⟨f, rfl⟩) rfl rfl rfl

theorem run_pulled (n : Nat) {s : State} (hs : DecSession s) (hpending : s.pending = List.replicate n .decNext) :
    ∃ t, Sys2Proof.core.run n s = .next t ∧ Pulled n s t := by
  induction n generalizing s with
  | zero => exact ⟨s, run_zero s, .refl hs⟩
  | succ n ih =>
    have hasked : DecSession (s.asked (List.replicate n .decNext)) := ⟨hs.ibuf_wf, hs.begun⟩
    obtain ⟨t, ht⟩ := decNext_exists_next hasked
    obtain ⟨hsession, hanswers, hcalls⟩ := decNext_pulled hasked ht
    have hrest : t.pending = List.replicate n .decNext := by
      obtain ⟨r, _, rfl⟩ := confinedTo_dec_decNext.next_cases ht
      rfl
    obtain ⟨u, hu, hpulled⟩ := ih hsession hrest
    have hfirst : Pulled 1 s t := ⟨hsession, hanswers, hcalls⟩
    exact ⟨u, (run_succ_of_step ((step_of_pending hpending).trans ht)).trans hu, Nat.add_comm 1 n ▸ hfirst.trans hpulled⟩

/-! ### From DEC_START on -/

/-- DEC_START begins a session with one answer, not a pixel, and a budget of 62 for each byte after the framing. -/
theorem decStart_session (input : List Byte) (s : State) :
    ∃ t v, decStart input s = .next t ∧ DecSession t ∧ t.pending = s.pending ∧ t.answers = s.answers ++ [v] ∧
      pixelsOf [v] = [] ∧ pixelBudget t ≤ 62 * (input.length - 14) := by
  have hwf : Memory.wf (Memory.ofBytes input) = true := Memory.ofBytes_wf input
  obtain ⟨f, pos, hraised⟩ | ⟨h, hopened⟩ := decStart_fails_or_opens input s
  · refine ⟨_, .failed f, hraised, .of_ended hwf (.inr ⟨f, rfl⟩), rfl, rfl, rfl, ?_⟩
    exact (pixelBudget_closed (SessionEnded.closed (.inr ⟨f, rfl⟩)).1).le.trans (Nat.zero_le _)
  · refine ⟨_, .header h, hopened, ⟨hwf, nofun⟩, rfl, rfl, rfl, ?_⟩
    rw [pixelBudget_active rfl, openBudget, answer_ibuf, startDec_ibuf, Memory.ofBytes_size]
    exact Nat.le_of_eq (Nat.zero_add _)

/-- Settles O33: the budget of a session bounds both the pixels it hands out and the calls that leave it open. -/
theorem decodeSessionsEnd : Obligations.DecodeSessionsEnd := by
  refine ⟨fun s t _ ha h => decNext_progress ha h, fun s input n => ?_⟩
  obtain ⟨t, v, ht, hsession, hpending, hfirst, hv, hbudget⟩ :=
    decStart_session input (s.asked (List.replicate n .decNext))
  obtain ⟨u, hu, hpulled⟩ := run_pulled n hsession hpending
  obtain ⟨vs, hvs, hcost⟩ := hpulled.answers
  have hdrop : u.answers.drop s.answers.length = v :: vs := by
    rw [hvs, hfirst, List.append_assoc]
    exact List.drop_left
  refine ⟨u, (run_asked_of_runOp (op := .decStart input) ht).trans hu, ?_, fun hn => hpulled.session.ended fun hopen => ?_⟩
  · rw [hdrop, pixelsOf_cons, hv, List.nil_append]
    omega
  · obtain ⟨_, hcalls⟩ := hpulled.calls hopen
    omega

end Sys2Proof.Machine
end

section
/-! One accepted ENC_PIXEL (R202 to R215): the chunks it emits, the run counter and the cache it leaves, and the whole
operation as one update of the unit made of these three. -/

namespace Sys2Proof.Machine

/-! ### The parts of the update -/

/-- The bytes of a sequence of chunks, back to back (R215). -/
def chunkBytes (chunks : List Instr) : List Byte := (chunks.map encode).flatten

/-- The Run that a counter of `n` is written as, if a run is pending (R205). -/
def pendingRun (n : Byte) : List Instr := if n = 0 then [] else [.run n]

/-- One more repeat fills the run or is the final pixel (R204). -/
abbrev RunDue (e : EncUnit) : Prop := e.erun.toNat + 1 = 62 ∨ e.eidx + 1 = e.etotal

/-- The pixel stands in its cache slot (R206). -/
abbrev CacheHit (e : EncUnit) (p : Pixel) : Prop := e.ecache[(pixelHash p).val] = p

/-- The chunk of a pixel that differs from the last (R206 to R212). -/
def newChunk (e : EncUnit) (p : Pixel) : Instr :=
  if CacheHit e p then .index (BitVec.ofNat 8 (pixelHash p).val) else missChunk e p

/-- The chunks emitted (R215). -/
def pixelChunks (e : EncUnit) (p : Pixel) : List Instr :=
  if p = e.elast then if RunDue e then pendingRun (e.erun + 1) else []
  else pendingRun e.erun ++ [newChunk e p]

/-- The run counter left (R219). -/
def runAfter (e : EncUnit) (p : Pixel) : Byte := if p = e.elast then if RunDue e then 0 else e.erun + 1 else 0

/-- The cache left: only a pixel that differs and misses is stored (R204, R206, R207). -/
def cacheAfter (e : EncUnit) (p : Pixel) : PixelCache :=
  if p = e.elast then e.ecache else if CacheHit e p then e.ecache else cacheStore e.ecache p

/-- The encoder after one accepted pixel. -/
def afterPixel (e : EncUnit) (p : Pixel) : EncUnit :=
  { e with
    eidx := e.eidx + 1
    elast := p
    erun := runAfter e p
    ecache := cacheAfter e p
    obuf := Memory.append e.obuf (chunkBytes (pixelChunks e p)) }

/-- The machine after one accepted pixel. -/
def acceptPixel (p : Pixel) (s : State) : State := answer .complete { s with enc := afterPixel s.enc p }

@[simp] theorem chunkBytes_nil : chunkBytes [] = [] := rfl
@[simp] theorem chunkBytes_singleton (i : Instr) : chunkBytes [i] = encode i := List.append_nil _
@[simp] theorem chunkBytes_append (xs ys : List Instr) : chunkBytes (xs ++ ys) = chunkBytes xs ++ chunkBytes ys := by
  simp only [chunkBytes, List.map_append, List.flatten_append]

theorem pendingRun_zero : pendingRun 0 = [] := rfl
theorem pendingRun_of_ne {n : Byte} (h : n ≠ 0) : pendingRun n = [.run n] := if_neg h

@[simp] theorem chunkBytes_pendingRun (n : Byte) : chunkBytes (pendingRun n) = pendingRunBytes n := by
  by_cases h : n = 0
  · rw [h]; rfl
  · rw [pendingRun_of_ne h, pendingRunBytes, if_neg h, chunkBytes_singleton, encode]

/-! ### The counter does not wrap below the bound of R223 -/

theorem run_succ_toNat {n : Byte} (h : n.toNat ≤ 61) : (n + 1).toNat = n.toNat + 1 := by bv_omega

theorem run_succ_ne_zero {n : Byte} (h : n.toNat ≤ 61) : n + 1 ≠ 0 := fun hzero => by
  have hsucc := run_succ_toNat h
  rw [hzero] at hsucc
  cases hsucc

theorem pendingRunBytes_succ {n : Byte} (h : n.toNat ≤ 61) : pendingRunBytes (n + 1) = [0xC0 + n] := by
  rw [pendingRunBytes, if_neg (run_succ_ne_zero h), BitVec.add_sub_cancel]

/-! ### The cases of R219's table -/

section
variable {e : EncUnit} {p : Pixel}

theorem pixelChunks_due (hp : p = e.elast) (hdue : RunDue e) : pixelChunks e p = pendingRun (e.erun + 1) := by
  rw [pixelChunks, if_pos hp, if_pos hdue]
theorem pixelChunks_counted (hp : p = e.elast) (hdue : ¬RunDue e) : pixelChunks e p = [] := by
  rw [pixelChunks, if_pos hp, if_neg hdue]
theorem pixelChunks_new (hp : p ≠ e.elast) : pixelChunks e p = pendingRun e.erun ++ [newChunk e p] := if_neg hp

theorem runAfter_due (hp : p = e.elast) (hdue : RunDue e) : runAfter e p = 0 := by rw [runAfter, if_pos hp, if_pos hdue]
theorem runAfter_counted (hp : p = e.elast) (hdue : ¬RunDue e) : runAfter e p = e.erun + 1 := by
  rw [runAfter, if_pos hp, if_neg hdue]
theorem runAfter_new (hp : p ≠ e.elast) : runAfter e p = 0 := if_neg hp

theorem cacheAfter_repeat (hp : p = e.elast) : cacheAfter e p = e.ecache := if_pos hp
theorem cacheAfter_hit (hhit : CacheHit e p) : cacheAfter e p = e.ecache := by rw [cacheAfter, if_pos hhit, ite_self]
theorem cacheAfter_miss (hp : p ≠ e.elast) (hmiss : ¬CacheHit e p) : cacheAfter e p = cacheStore e.ecache p := by
  rw [cacheAfter, if_neg hp, if_neg hmiss]

theorem newChunk_hit (hhit : CacheHit e p) : newChunk e p = .index (BitVec.ofNat 8 (pixelHash p).val) := if_pos hhit
theorem newChunk_miss (hmiss : ¬CacheHit e p) : newChunk e p = missChunk e p := if_neg hmiss

end

/-! ### The operation -/

theorem emit_nil (s : State) : emit [] s = s := by simp only [emit, Memory.append_nil]

/-- The flush of R205 as one update; with no run pending it changes nothing. -/
theorem afterFlush_eq (s : State) : afterFlush s = setErun 0 (emit (pendingRunBytes s.enc.erun) s) := by
  by_cases h : s.enc.erun = 0
  · have hself : s = setErun s.enc.erun s := rfl
    have hnot : ¬0 < s.enc.erun.toNat := by rw [h]; decide
    rw [afterFlush, if_neg hnot, pendingRunBytes, if_pos h, emit_nil, ← h, ← hself]
  · rw [afterFlush, if_pos (drun_pos_of_ne_zero h), pendingRunBytes, if_neg h]

theorem encodeRepeat_countPixel {p : Pixel} {s : State} (hrun : s.enc.erun.toNat ≤ 61) (hp : p = s.enc.elast) :
    encodeRepeat p (countPixel s) = .next (acceptPixel p s) := by
  refine (encodeRepeat_eq (s := countPixel s) hrun).trans ?_
  by_cases hdue : RunDue s.enc
  · rw [acceptPixel, afterPixel, pixelChunks_due hp hdue, runAfter_due hp hdue, cacheAfter_repeat hp, chunkBytes_pendingRun,
      pendingRunBytes_succ hrun]
    exact if_pos hdue
  · rw [acceptPixel, afterPixel, pixelChunks_counted hp hdue, runAfter_counted hp hdue, cacheAfter_repeat hp, chunkBytes_nil,
      Memory.append_nil]
    exact if_neg hdue

theorem encodeDiffering_countPixel {p : Pixel} {s : State} (hrun : s.enc.erun.toNat ≤ 61) (hp : p ≠ s.enc.elast) :
    encodeDiffering p (countPixel s) = .next (acceptPixel p s) := by
  rw [encodeDiffering_eq (s := countPixel s) hrun, afterFlush_eq, acceptPixel, afterPixel, pixelChunks_new hp,
    runAfter_new hp, chunkBytes_append, chunkBytes_pendingRun, chunkBytes_singleton, ← Memory.append_append]
  by_cases hhit : CacheHit s.enc p
  · rw [newChunk_hit hhit, cacheAfter_hit hhit]
    exact encodeNew_hit hhit
  · rw [newChunk_miss hhit, cacheAfter_miss hp hhit]
    exact encodeNew_miss hhit

/-- An accepted ENC_PIXEL is one update of the unit and the answer `complete` (R202). -/
theorem encPixel_eq {p : Pixel} {s : State} (ha : s.enc.estatus = .active) (hn : s.enc.eidx ≠ s.enc.etotal)
    (hrun : s.enc.erun.toNat ≤ 61) : encPixel p s = .next (acceptPixel p s) := by
  rw [encPixel_accepted ha hn]
  split
  · exact encodeRepeat_countPixel hrun ‹_›
  · exact encodeDiffering_countPixel hrun ‹_›

end Sys2Proof.Machine
end

section
/-! The encoder's operations one by one: ENC_START, ENC_PIXEL in each case of R204 to R212, and outside ACTIVE. -/

namespace Sys2Proof.Machine

/-! ### The deltas as bytes -/

theorem s8_eq_toInt (v : Byte) : s8 v = v.toInt := by
  rw [s8, BitVec.toInt_eq_toNat_cond]
  split
  · rw [if_pos (by omega)]
  · rw [if_neg (by omega)]; rfl

theorem sub8_eq_sub (x y : Byte) : sub8 x y = x - y := by
  rw [sub8, wrap8, Int.sub_eq_add_neg, BitVec.ofInt_add, BitVec.ofInt_neg, ← BitVec.sub_eq_add_neg, BitVec.ofInt_natCast,
    BitVec.ofInt_natCast, BitVec.ofNat_toNat, BitVec.ofNat_toNat, BitVec.setWidth_eq, BitVec.setWidth_eq]

theorem subs8_toInt (x y : Byte) : subs8 x.toInt y.toInt = (x - y).toInt := by
  rw [subs8, s8_eq_toInt, wrap8, BitVec.toInt_ofInt, BitVec.toInt_sub]

theorem fitsDiff_iff (dr dg db : Int) :
    fitsDiff dr dg db = true ↔ -2 ≤ dr ∧ dr ≤ 1 ∧ -2 ≤ dg ∧ dg ≤ 1 ∧ -2 ≤ db ∧ db ≤ 1 := by
  simp only [fitsDiff, inRange, Bool.and_eq_true, decide_eq_true_eq, and_assoc]

theorem fitsLuma_iff (dg drDg dbDg : Int) :
    fitsLuma dg drDg dbDg = true ↔ -32 ≤ dg ∧ dg ≤ 31 ∧ -8 ≤ drDg ∧ drDg ≤ 7 ∧ -8 ≤ dbDg ∧ dbDg ≤ 7 := by
  simp only [fitsLuma, inRange, Bool.and_eq_true, decide_eq_true_eq, and_assoc]

/-- R208 to R211: the same tests on the same deltas, and the same fields in the bytes. -/
theorem encode_deltaChunk (last p : Pixel) : encode (deltaChunk last p) = deltaBytes last p := by
  simp only [deltaChunk, deltaBytes, sub8_eq_sub, s8_eq_toInt, subs8_toInt, fitsDiff_iff, fitsLuma_iff]
  split
  · rw [encode, wrap8]
    congr 2
    omega
  · split
    · rw [encode, wrap8, wrap8]
      congr 3
      omega
    · rfl

theorem missChunk_sameAlpha {e : EncUnit} {p : Pixel} (h : p.a = e.elast.a) : missChunk e p = deltaChunk e.elast p :=
  if_pos ((sameAlpha_iff e p).mpr h)

theorem missChunk_otherAlpha {e : EncUnit} {p : Pixel} (h : p.a ≠ e.elast.a) : missChunk e p = .rgba p.r p.g p.b p.a :=
  if_neg fun hsame => h ((sameAlpha_iff e p).mp hsame)

/-! ### ENC_PIXEL, case by case -/

theorem acceptPixel_decSideKept (p : Pixel) (s : State) : DecSideKept s (acceptPixel p s) := ⟨rfl, rfl, rfl, rfl⟩
theorem afterPixel_encKept (e : EncUnit) (p : Pixel) : EncKept e (afterPixel e p) := ⟨rfl, rfl, rfl⟩

theorem afterPixel_appended {e : EncUnit} (h : Memory.wf e.obuf = true) (p : Pixel) :
    Appended (chunkBytes (pixelChunks e p)) e.obuf (afterPixel e p).obuf := Memory.append_appended h _

/-- The bytes of a pixel that differs from the last (R205). -/
theorem chunkBytes_new {e : EncUnit} {p : Pixel} (hp : p ≠ e.elast) :
    chunkBytes (pixelChunks e p) = pendingRunBytes e.erun ++ encode (newChunk e p) := by
  rw [pixelChunks_new hp, chunkBytes_append, chunkBytes_pendingRun, chunkBytes_singleton]

theorem afterPixel_miss_ecache {e : EncUnit} {p : Pixel} (hp : p ≠ e.elast) (hmiss : ¬CacheHit e p)
    (j : Fin Config.cacheSlots) : (afterPixel e p).ecache[j.val] = if j = pixelHash p then p else e.ecache[j.val] := by
  rw [← cacheStore_get, ← cacheAfter_miss hp hmiss]
  rfl

/-- Settles O36: the two rows of R219's table for a repeat. -/
theorem repeatedPixelExtendsTheRun : Obligations.RepeatedPixelExtendsTheRun := by
  intro s p ha hn hrun hwf hp
  refine ⟨_, encPixel_eq ha hn hrun, acceptPixel_decSideKept p s, afterPixel_encKept _ p, rfl, rfl, cacheAfter_repeat hp, ?_⟩
  have hout := afterPixel_appended hwf p
  split
  next hdue =>
    rw [pixelChunks_due hp hdue, chunkBytes_pendingRun, pendingRunBytes_succ hrun] at hout
    exact ⟨runAfter_due hp hdue, hout⟩
  next hdue =>
    refine ⟨(congrArg BitVec.toNat (runAfter_counted hp hdue)).trans (run_succ_toNat hrun), ?_⟩
    show Memory.append _ (chunkBytes (pixelChunks s.enc p)) = _
    rw [pixelChunks_counted hp hdue, chunkBytes_nil, Memory.append_nil]

/-- Settles O37: the new chunk of a hit is Index, and a hit stores nothing. -/
theorem cachedPixelBecomesIndex : Obligations.CachedPixelBecomesIndex := by
  intro s p ha hn hrun hwf hp hhit
  have hout := afterPixel_appended hwf p
  rw [chunkBytes_new hp, newChunk_hit hhit] at hout
  exact ⟨_, encPixel_eq ha hn hrun, acceptPixel_decSideKept p s, afterPixel_encKept _ p, rfl, rfl, runAfter_new hp,
    cacheAfter_hit hhit, hout⟩

/-- A new pixel that misses is stored in its slot, and its chunk follows the pending run (R205, R207). -/
theorem runOp_encPixel_miss {s : State} {p : Pixel} (ha : s.enc.estatus = .active) (hn : s.enc.eidx ≠ s.enc.etotal)
    (hrun : s.enc.erun.toNat ≤ 61) (hwf : Memory.wf s.enc.obuf = true) (hp : p ≠ s.enc.elast) (hmiss : ¬CacheHit s.enc p) :
    ∃ t, runOp (.encPixel p) s = .next t ∧ DecSideKept s t ∧ EncKept s.enc t.enc ∧
      t.enc.eidx = s.enc.eidx + 1 ∧ t.enc.elast = p ∧ t.enc.erun = 0 ∧
      (∀ j : Fin Config.cacheSlots, t.enc.ecache[j.val] = if j = pixelHash p then p else s.enc.ecache[j.val]) ∧
      Appended (pendingRunBytes s.enc.erun ++ encode (missChunk s.enc p)) s.enc.obuf t.enc.obuf := by
  have hout := afterPixel_appended hwf p
  rw [chunkBytes_new hp, newChunk_miss hmiss] at hout
  exact ⟨_, encPixel_eq ha hn hrun, acceptPixel_decSideKept p s, afterPixel_encKept _ p, rfl, rfl, runAfter_new hp,
    afterPixel_miss_ecache hp hmiss, hout⟩

/-- Settles O38: the miss is written by its deltas. -/
theorem sameAlphaMissBecomesDiffLumaOrRgb : Obligations.SameAlphaMissBecomesDiffLumaOrRgb := by
  intro s p ha hn hrun hwf hp hmiss halpha
  rw [← encode_deltaChunk, ← missChunk_sameAlpha halpha]
  exact runOp_encPixel_miss ha hn hrun hwf hp hmiss

/-- Settles O39: the miss is written whole; another alpha is another pixel. -/
theorem changedAlphaMissBecomesRgba : Obligations.ChangedAlphaMissBecomesRgba := by
  intro s p ha hn hrun hwf hmiss halpha
  have hmissed := runOp_encPixel_miss ha hn hrun hwf (fun hp => halpha (congrArg Pixel.a hp)) hmiss
  rwa [missChunk_otherAlpha halpha] at hmissed

/-! ### The chunks of one pixel -/

/-- What R220 asks of a chunk that `p` is written as. -/
def EmittedFor (p : Pixel) (i : Instr) : Prop :=
  i.wellFormed = true ∧ i ≠ .endMarker ∧ (∀ n, i = .run n → 1 ≤ n.toNat ∧ n.toNat ≤ 62) ∧
    ∀ idx, i = .index idx → idx.toNat = (pixelHash p).val

theorem run_emittedFor {n : Byte} (hlo : n ≠ 0) (hhi : n.toNat ≤ 62) (p : Pixel) : EmittedFor p (.run n) := by
  have hrange : 1 ≤ n.toNat ∧ n.toNat ≤ 62 := ⟨drun_pos_of_ne_zero hlo, hhi⟩
  refine ⟨run_wf_of_range hrange, nofun, fun m hm => ?_, nofun⟩
  cases hm
  exact hrange

theorem pendingRun_emittedFor {n : Byte} (h : n.toNat ≤ 62) (p : Pixel) : ∀ i ∈ pendingRun n, EmittedFor p i := by
  intro i hi
  unfold pendingRun at hi
  split at hi
  · cases hi
  next hn => rw [List.mem_singleton.mp hi]; exact run_emittedFor hn h p

/-- A miss is written as Diff, Luma, Rgb or Rgba (R208 to R212). -/
theorem missChunk_cases (e : EncUnit) (p : Pixel) :
    (∃ dr dg db, missChunk e p = .diff dr dg db) ∨ (∃ dg drDg dbDg, missChunk e p = .luma dg drDg dbDg) ∨
    missChunk e p = .rgb p.r p.g p.b ∨ missChunk e p = .rgba p.r p.g p.b p.a := by
  by_cases halpha : p.a = e.elast.a
  · rw [missChunk_sameAlpha halpha]
    unfold deltaChunk
    simp only
    split
    · exact .inl ⟨_, _, _, rfl⟩
    · split
      · exact .inr (.inl ⟨_, _, _, rfl⟩)
      · exact .inr (.inr (.inl rfl))
  · exact .inr (.inr (.inr (missChunk_otherAlpha halpha)))

theorem missChunk_emittedFor (e : EncUnit) (p : Pixel) : EmittedFor p (missChunk e p) := by
  have hwf := missChunk_wf e p
  obtain ⟨_, _, _, h⟩ | ⟨_, _, _, h⟩ | h | h := missChunk_cases e p
  all_goals rw [h] at hwf ⊢; exact ⟨hwf, nofun, nofun, nofun⟩

theorem slotByte_toNat (j : Fin Config.cacheSlots) : (BitVec.ofNat 8 j.val).toNat = j.val := by
  have hj : j.val < 64 := j.isLt
  rw [BitVec.toNat_ofNat]
  omega

theorem newChunk_emittedFor (e : EncUnit) (p : Pixel) : EmittedFor p (newChunk e p) := by
  by_cases hhit : CacheHit e p
  · rw [newChunk_hit hhit]
    refine ⟨indexChunk_wf _, nofun, nofun, fun idx hidx => ?_⟩
    cases hidx
    exact slotByte_toNat _
  · rw [newChunk_miss hhit]
    exact missChunk_emittedFor e p

theorem pixelChunks_emittedFor {e : EncUnit} (hrun : e.erun.toNat ≤ 61) (p : Pixel) :
    ∀ i ∈ pixelChunks e p, EmittedFor p i := by
  intro i hi
  unfold pixelChunks at hi
  split at hi
  · split at hi
    · exact pendingRun_emittedFor (by rw [run_succ_toNat hrun]; omega) p i hi
    · cases hi
  · obtain hi | hi := List.mem_append.mp hi
    · exact pendingRun_emittedFor (by omega) p i hi
    · rw [List.mem_singleton.mp hi]
      exact newChunk_emittedFor e p

theorem pendingRun_cases (n : Byte) : pendingRun n = [] ∨ pendingRun n = [.run n] := by
  unfold pendingRun
  split
  · exact .inl rfl
  · exact .inr rfl

theorem pixelChunks_shape (e : EncUnit) (p : Pixel) :
    pixelChunks e p = [] ∨ (∃ i, pixelChunks e p = [i]) ∨ ∃ n i, pixelChunks e p = [.run n, i] := by
  unfold pixelChunks
  split
  · split
    · exact (pendingRun_cases _).imp_right fun h => .inl ⟨_, h⟩
    · exact .inl rfl
  · obtain h | h := pendingRun_cases e.erun
    · exact .inr (.inl ⟨_, by rw [h]; rfl⟩)
    · exact .inr (.inr ⟨_, _, by rw [h]; rfl⟩)

theorem encode_length_le {p : Pixel} {i : Instr} (h : EmittedFor p i) : (encode i).length ≤ 5 := by
  obtain ⟨_, hend, _, _⟩ := h
  cases i with
  | endMarker => exact absurd rfl hend
  | rgb | rgba | index | diff | luma | run => simp [encode]

theorem chunkBytes_length_le {e : EncUnit} (hrun : e.erun.toNat ≤ 61) (p : Pixel) :
    (chunkBytes (pixelChunks e p)).length ≤ 6 := by
  have hemitted := pixelChunks_emittedFor hrun p
  obtain h | ⟨i, h⟩ | ⟨n, i, h⟩ := pixelChunks_shape e p
  · rw [h]; exact Nat.zero_le _
  · rw [h] at hemitted ⊢
    rw [chunkBytes_singleton]
    exact (encode_length_le (hemitted i (by simp))).trans (by decide)
  · rw [h] at hemitted ⊢
    have hi := encode_length_le (hemitted i (by simp))
    have hrunByte : (encode (.run n)).length = 1 := rfl
    rw [show [Instr.run n, i] = [.run n] ++ [i] from rfl, chunkBytes_append, chunkBytes_singleton, chunkBytes_singleton,
      List.length_append]
    omega

/-- Settles O40: the chunks are the pending run's, if any, and the pixel's own. -/
theorem onePixelEmitsAtMostTwoChunks : Obligations.OnePixelEmitsAtMostTwoChunks := fun s p ha hn hrun hwf =>
  ⟨_, pixelChunks s.enc p, encPixel_eq ha hn hrun, afterPixel_appended hwf p, chunkBytes_length_le hrun p,
    pixelChunks_shape s.enc p, pixelChunks_emittedFor hrun p⟩

/-! ### ENC_START, and the other operations outside ACTIVE -/

/-- Settles O34: the start values are written, and the 14 framing bytes are appended to an empty output. -/
theorem encStartWritesTheFraming : Obligations.EncStartWritesTheFraming := by
  intro h s
  exact ⟨_, rfl, ⟨rfl, rfl, rfl, rfl⟩, rfl, Memory.append_wf (Memory.append_wf Memory.nil_wf _) _, rfl, cacheFill_get _,
    rfl, rfl, rfl, rfl, rfl, rfl⟩

theorem setStatus_enc_self {s : State} {st : Status} (h : s.enc.estatus = st) : setStatus .enc st s = s := by
  subst h
  rfl

/-- R218: raising the same failure again writes no register. -/
theorem encPixel_fault {f : Failure} {s : State} (h : s.enc.estatus = .fault f) (p : Pixel) :
    encPixel p s = .next (answer (.failed f) s) := by simp only [encPixel, h, raise, setStatus_enc_self h]

theorem encEnd_fault {f : Failure} {s : State} (h : s.enc.estatus = .fault f) :
    encEnd s = .next (answer (.failed f) s) := by simp only [encEnd, h, raise, setStatus_enc_self h]

/-- Settles O43: each status but ACTIVE has its own arm in both operations. -/
theorem encOperationsOutsideActive : Obligations.EncOperationsOutsideActive := by
  refine fun s p => ⟨?_, fun f hfault => ⟨encPixel_fault hfault p, encEnd_fault hfault⟩⟩
  rintro (hst | hst)
  · exact ⟨by simp only [runOp, encPixel, hst], by simp only [runOp, encEnd, hst]⟩
  · exact ⟨by simp only [runOp, encPixel, hst], by simp only [runOp, encEnd, hst]⟩

end Sys2Proof.Machine
end

section
/-! ENC_END (R216): with every pixel given it closes the file, and otherwise it raises. -/

namespace Sys2Proof.Machine

/-- The machine after an ENC_END that closes the file. -/
def closeFile (s : State) : State := answer .complete (setStatus .enc .done (emit Config.endMark s))

theorem encEnd_complete {s : State} (ha : s.enc.estatus = .active) (hn : s.enc.eidx = s.enc.etotal) :
    encEnd s = .next (closeFile s) := by simp only [encEnd, ha, atTotal_iff, hn, if_true, closeFile]

theorem encEnd_missing {s : State} (ha : s.enc.estatus = .active) (hn : s.enc.eidx ≠ s.enc.etotal) :
    encEnd s = .next (raise .enc .lengthMismatch s) := by simp only [encEnd, ha, atTotal_iff, hn, if_false]

theorem encPixel_surplus {p : Pixel} {s : State} (ha : s.enc.estatus = .active) (hn : s.enc.eidx = s.enc.etotal) :
    encPixel p s = .next (raise .enc .lengthMismatch s) := by simp only [encPixel, ha, atTotal_iff, hn, if_true]

/-- Settles O41: both ends of an ACTIVE session, and R223's flush of the final pixel. -/
theorem encEndClosesTheFile : Obligations.EncEndClosesTheFile := by
  intro s ha hwf
  refine ⟨fun hn => ?_, encEnd_missing ha, fun hi hn => ?_⟩
  · exact ⟨closeFile s, encEnd_complete ha hn, ⟨rfl, rfl, rfl, rfl⟩, rfl, Memory.append_appended hwf _, rfl⟩
  · have hsession := hi.enc_session (ha.trans_ne nofun)
    exact BitVec.eq_of_toNat_eq (hsession.run_flushed hn)

end Sys2Proof.Machine
end

section
/-! The invariant (R223), unit by unit: what it says of the encoder is a predicate of the unit alone, and what it says of the
decoder one of the unit and its input. Each operation keeps its own unit's part and leaves the other unit. -/

namespace Sys2Proof.Machine

/-- What `Inv` says of the encoder. -/
structure EncSound (e : EncUnit) : Prop where
  obuf_wf : Memory.wf e.obuf = true
  faults : ∀ f, e.estatus = .fault f → f = .lengthMismatch
  session : e.estatus ≠ .idle → EncSession e

/-- What `Inv` says of the decoder's registers but for the cursor. -/
structure DecRegsSound (d : DecUnit) : Prop where
  drun_le : d.drun.toNat ≤ 61
  slots : SlotsInPlace Config.decCacheInit d.dcache
  faults : d.dstatus ≠ .fault .lengthMismatch

/-- What `Inv` says of the decoder. -/
structure DecSound (d : DecUnit) (ibuf : Memory) : Prop where
  ibuf_wf : Memory.wf ibuf = true
  pos_le : d.pos ≤ Memory.size ibuf
  pos_ge : d.dstatus = .active → Config.firstChunk ≤ d.pos
  regs : DecRegsSound d

theorem inv_iff (s : State) : Inv s ↔ DecSound s.dec s.ibuf ∧ EncSound s.enc := by
  constructor
  · rintro ⟨hibuf, hobuf, hle, hge, hdrun, hslots, hdec, henc, hsession⟩
    exact ⟨⟨hibuf, hle, hge, hdrun, hslots, hdec⟩, hobuf, henc, hsession⟩
  · rintro ⟨⟨hibuf, hle, hge, hdrun, hslots, hdec⟩, hobuf, henc, hsession⟩
    exact ⟨hibuf, hobuf, hle, hge, hdrun, hslots, hdec, henc, hsession⟩

/-! ### The encoder session -/

theorem EncSession.olen_ge {e : EncUnit} (h : EncSession e) : 14 ≤ e.olen := by
  have hlen := congrArg List.length h.framing
  rw [List.length_take, Memory.bytes_length, List.length_append, serHeader_length] at hlen
  have hmagic : Config.magic.length = 4 := rfl
  unfold EncUnit.olen
  omega

/-- What is appended does not touch the framing (R76). -/
theorem EncSession.framing_append {e : EncUnit} (h : EncSession e) (bs : List Byte) :
    (Memory.bytes (Memory.append e.obuf bs)).take 14 = Config.magic ++ serHeader e.ehdr := by
  have hlen : 14 ≤ (Memory.bytes e.obuf).length := (Memory.bytes_length e.obuf).symm ▸ h.olen_ge
  rw [Memory.append_bytes, List.take_append_of_le_length hlen, h.framing]

theorem EncSession.setStatus {e : EncUnit} (h : EncSession e) (st : Status) : EncSession { e with estatus := st } :=
  ⟨h.erun_le, h.eidx_le, h.erun_le_eidx, h.slots, h.etotal_eq, h.framing, h.run_flushed⟩

theorem EncSession.append {e : EncUnit} (h : EncSession e) (bs : List Byte) :
    EncSession { e with obuf := Memory.append e.obuf bs } :=
  ⟨h.erun_le, h.eidx_le, h.erun_le_eidx, h.slots, h.etotal_eq, h.framing_append bs, h.run_flushed⟩

/-- R219: the counter is cleared, or it has grown by 1 and no run was due. -/
theorem runAfter_cases (e : EncUnit) (p : Pixel) : runAfter e p = 0 ∨ (runAfter e p = e.erun + 1 ∧ ¬RunDue e) := by
  by_cases hp : p = e.elast
  · by_cases hdue : RunDue e
    · exact .inl (runAfter_due hp hdue)
    · exact .inr ⟨runAfter_counted hp hdue, hdue⟩
  · exact .inl (runAfter_new hp)

theorem SlotsInPlace.cacheAfter {e : EncUnit} {fill : Pixel} (h : SlotsInPlace fill e.ecache) (p : Pixel) :
    SlotsInPlace fill (cacheAfter e p) := by
  unfold Machine.cacheAfter
  split
  · exact h
  · split
    · exact h
    · exact h.store p

/-- R223: an accepted pixel keeps the bounds of the session. -/
theorem EncSession.afterPixel {e : EncUnit} (h : EncSession e) (hn : e.eidx ≠ e.etotal) (p : Pixel) :
    EncSession (afterPixel e p) := by
  have hle := h.eidx_le
  have hbounds : (runAfter e p).toNat ≤ 61 ∧ (runAfter e p).toNat ≤ e.eidx + 1 ∧
      (e.eidx + 1 = e.etotal → (runAfter e p).toNat = 0) := by
    obtain hzero | ⟨hsucc, hdue⟩ := runAfter_cases e p
    · rw [hzero]
      exact ⟨Nat.zero_le _, Nat.zero_le _, fun _ => rfl⟩
    · have hrun := h.erun_le
      have hidx := h.erun_le_eidx
      rw [hsucc, run_succ_toNat hrun]
      unfold RunDue at hdue
      omega
  obtain ⟨hrun, hidx, hflushed⟩ := hbounds
  exact ⟨hrun, by show e.eidx + 1 ≤ e.etotal; omega, hidx, h.slots.cacheAfter p, h.etotal_eq, h.framing_append _, hflushed⟩

/-! ### The operations of ENC -/

theorem EncSound.raise {s : State} (h : EncSound s.enc) (hne : s.enc.estatus ≠ .idle) :
    EncSound (raise .enc .lengthMismatch s).enc :=
  ⟨h.obuf_wf, fun _ hf => (Status.fault.inj hf).symm, fun _ => (h.session hne).setStatus _⟩

theorem startEnc_session (h : Header) (s : State) :
    EncSession (emit (serHeader h) (emit Config.magic (startEnc h s))).enc where
  erun_le := Nat.zero_le _
  eidx_le := Nat.zero_le _
  erun_le_eidx := Nat.le_refl _
  slots := .fill _
  etotal_eq := rfl
  framing := rfl
  run_flushed _ := rfl

theorem encStart_sound {h : Header} {s t : State} (ht : encStart h s = .next t) : EncSound t.enc := by
  cases ht
  exact ⟨Memory.append_wf (Memory.append_wf Memory.nil_wf _) _, nofun, fun _ => (startEnc_session h s).setStatus _⟩

/-- From a sound unit ENC_PIXEL raises LengthMismatch or accepts its pixel (R201, R218). -/
theorem encPixel_sound_cases {p : Pixel} {s t : State} (hs : EncSound s.enc) (h : encPixel p s = .next t) :
    (s.enc.estatus ≠ .idle ∧ t = raise .enc .lengthMismatch s) ∨
    (s.enc.estatus = .active ∧ s.enc.eidx ≠ s.enc.etotal ∧ t = acceptPixel p s) := by
  cases hst : s.enc.estatus with
  | idle => simp only [encPixel, hst] at h; cases h
  | done => simp only [encPixel, hst] at h; cases h
  | fault f =>
    simp only [encPixel, hst, hs.faults f hst] at h
    cases h
    exact .inl ⟨nofun, rfl⟩
  | active =>
    by_cases hn : s.enc.eidx = s.enc.etotal
    · cases (encPixel_surplus hst hn).symm.trans h
      exact .inl ⟨nofun, rfl⟩
    · cases (encPixel_eq hst hn (hs.session (hst.trans_ne nofun)).erun_le).symm.trans h
      exact .inr ⟨rfl, hn, rfl⟩

/-- From a sound unit ENC_END raises LengthMismatch or closes the file (R216, R218). -/
theorem encEnd_sound_cases {s t : State} (hs : EncSound s.enc) (h : encEnd s = .next t) :
    s.enc.estatus ≠ .idle ∧ (t = raise .enc .lengthMismatch s ∨ t = closeFile s) := by
  cases hst : s.enc.estatus with
  | idle => simp only [encEnd, hst] at h; cases h
  | done => simp only [encEnd, hst] at h; cases h
  | fault f =>
    simp only [encEnd, hst, hs.faults f hst] at h
    cases h
    exact ⟨nofun, .inl rfl⟩
  | active =>
    by_cases hn : s.enc.eidx = s.enc.etotal
    · cases (encEnd_complete hst hn).symm.trans h
      exact ⟨nofun, .inr rfl⟩
    · cases (encEnd_missing hst hn).symm.trans h
      exact ⟨nofun, .inl rfl⟩

theorem EncSound.acceptPixel {s : State} (h : EncSound s.enc) (hn : s.enc.eidx ≠ s.enc.etotal) (p : Pixel) :
    EncSound (acceptPixel p s).enc :=
  ⟨Memory.append_wf h.obuf_wf _, h.faults, fun hne => (h.session hne).afterPixel hn p⟩

theorem EncSound.closeFile {s : State} (h : EncSound s.enc) (hne : s.enc.estatus ≠ .idle) : EncSound (closeFile s).enc :=
  ⟨Memory.append_wf h.obuf_wf _, nofun, fun _ => ((h.session hne).append _).setStatus _⟩

theorem runOp_enc_sound {op : HostOp} {s t : State} (hop : op.agent = some .enc) (hs : EncSound s.enc)
    (h : runOp op s = .next t) : EncSound t.enc := by
  cases op with
  | encStart hdr => exact encStart_sound h
  | encPixel p =>
    obtain ⟨hne, rfl⟩ | ⟨_, hn, rfl⟩ := encPixel_sound_cases hs h
    · exact hs.raise hne
    · exact hs.acceptPixel hn p
  | encEnd =>
    obtain ⟨hne, rfl | rfl⟩ := encEnd_sound_cases hs h
    · exact hs.raise hne
    · exact hs.closeFile hne
  | decStart | decNext | hash | parseChunk | serChunk | bytesToPix | pixToBytes => cases hop

/-! ### The operations of DEC -/

/-- DEC_START raises one of the decoder's own failures inside the input, or opens the session after the framing. -/
theorem decStart_cases (input : List Byte) (s : State) :
    (∃ f pos, f ≠ .lengthMismatch ∧ pos ≤ input.length ∧ decStart input s = failDecStart f pos (startDec input s)) ∨
    (14 ≤ input.length ∧ ∃ h, decStart input s = openDecSession h 14 (startDec input s)) := by
  by_cases h4 : input.length < 4
  · exact .inl ⟨.truncated, 0, nofun, Nat.zero_le _, decStart_short h4 s⟩
  by_cases hm : input.take 4 ≠ Config.magic
  · exact .inl ⟨.invalidMagic, 4, nofun, Nat.le_of_not_lt h4, decStart_wrongMagic h4 hm s⟩
  by_cases h14 : input.length < 14
  · exact .inl ⟨.truncated, 4, nofun, Nat.le_of_not_lt h4, decStart_shortRecord h4 hm h14 s⟩
  · obtain ⟨h, _, hopen⟩ := decStart_record h4 hm h14 s
    exact .inr ⟨Nat.le_of_not_lt h14, h, hopen⟩

theorem decStart_sound {input : List Byte} {s t : State} (h : decStart input s = .next t) : DecSound t.dec t.ibuf := by
  have hwf := Memory.ofBytes_wf input
  have hsize := Memory.ofBytes_size input
  obtain ⟨f, pos, hf, hpos, hraised⟩ | ⟨hlen, hdr, hopened⟩ := decStart_cases input s
  · cases hraised.symm.trans h
    exact ⟨hwf, hsize.symm ▸ hpos, nofun, Nat.zero_le _, .fill _, fun he => hf (Status.fault.inj he)⟩
  · cases hopened.symm.trans h
    exact ⟨hwf, hsize.symm ▸ hlen, fun _ => Nat.le_refl _, Nat.zero_le _, .fill _, nofun⟩

/-- An item's meaning keeps the registers sound. -/
theorem exec_regsSound {i : Instr} {s t : State} (hs : DecRegsSound s.dec) (h : exec i s = .next t) :
    DecRegsSound t.dec := by
  obtain ⟨_, _, p, rfl⟩ | ⟨n, _, hwf, rfl⟩ | ⟨_, rfl⟩ := exec_next_cases h
  · exact ⟨hs.drun_le, hs.slots.store p, hs.faults⟩
  · obtain ⟨hlo, hhi⟩ := Laws.run_range hwf
    have hpred := drun_pred_toNat hlo
    exact ⟨by rw [repeatPixel_dec_drun]; omega, hs.slots, hs.faults⟩
  · exact ⟨hs.drun_le, hs.slots, nofun⟩

theorem fetchAndExec_regsSound {s t : State} (hs : DecRegsSound s.dec) (h : fetchAndExec s = .next t) :
    DecRegsSound t.dec := by
  unfold fetchAndExec at h
  split at h
  next i pos _ => exact exec_regsSound (s := setPos pos s) ⟨hs.drun_le, hs.slots, hs.faults⟩ h
  next f pos hp =>
    cases h
    refine ⟨hs.drun_le, hs.slots, fun he => ?_⟩
    obtain ⟨hf, _⟩ | ⟨hf, _⟩ := parseChunk_failed hp
    · cases hf.symm.trans (Status.fault.inj he)
    · cases hf.symm.trans (Status.fault.inj he)
  next => cases h

theorem decNext_regsSound {s t : State} (hs : DecRegsSound s.dec) (h : decNext s = .next t) : DecRegsSound t.dec := by
  cases hst : s.dec.dstatus with
  | idle => cases (decNext_idle hst).symm.trans h
  | done => cases (decNext_done hst).symm.trans h; exact hs
  | fault f => cases (decNext_fault hst).symm.trans h; exact hs
  | active =>
    by_cases hrun : s.dec.drun = 0
    · exact fetchAndExec_regsSound hs ((decNext_fetch hst hrun).symm.trans h)
    · have hpos := drun_pos_of_ne_zero hrun
      have hpred := drun_pred_toNat hpos
      have hle := hs.drun_le
      cases (decNext_replay hst hpos).symm.trans h
      exact ⟨by rw [repeatPixel_dec_drun]; omega, hs.slots, hs.faults⟩

/-- DEC_NEXT opens no session. -/
theorem decNext_active_before {s t : State} (h : decNext s = .next t) (ht : t.dec.dstatus = .active) :
    s.dec.dstatus = .active := by
  cases hst : s.dec.dstatus with
  | active => rfl
  | idle => cases (decNext_idle hst).symm.trans h
  | done => cases (decNext_done hst).symm.trans h; exact hst.symm.trans ht
  | fault f => cases (decNext_fault hst).symm.trans h; exact hst.symm.trans ht

theorem decNext_sound {s t : State} (hi : Inv s) (h : decNext s = .next t) : DecSound t.dec t.ibuf := by
  obtain ⟨hforward, hle, hbuf⟩ := decNext_cursor_forward hi h
  obtain ⟨⟨hwf, _, hge, hregs⟩, _⟩ := (inv_iff s).mp hi
  exact ⟨hbuf.symm ▸ hwf, hle, fun ht => (hge (decNext_active_before h ht)).trans hforward, decNext_regsSound hregs h⟩

/-! ### Every step -/

theorem runOp_keeps_inv {op : HostOp} {s t : State} (hi : Inv s) (h : runOp op s = .next t) : Inv t := by
  obtain ⟨hdec, henc⟩ := (inv_iff s).mp hi
  rw [inv_iff]
  match hop : op.agent with
  | some .dec =>
    refine ⟨?_, (runOp_dec_keeps_enc hop h).symm ▸ henc⟩
    cases op with
    | decStart input => exact decStart_sound h
    | decNext => exact decNext_sound hi h
    | encStart | encPixel | encEnd | hash | parseChunk | serChunk | bytesToPix | pixToBytes => cases hop
  | some .enc =>
    obtain ⟨hsame, hbuf⟩ := runOp_enc_keeps_dec hop h
    rw [hsame, hbuf]
    exact ⟨hdec, runOp_enc_sound hop henc h⟩
  | none =>
    obtain ⟨v, rfl⟩ := runOp_pure_next hop h
    exact ⟨hdec, henc⟩

theorem Inv.asked {s : State} (hi : Inv s) (ops : List HostOp) : Inv (s.asked ops) :=
  (inv_iff (s.asked ops)).mpr ((inv_iff s).mp hi)

theorem step_keeps_inv {s t : State} (hi : Inv s) (h : step s = .next t) : Inv t := by
  cases hpending : s.pending with
  | nil =>
    simp only [step, hpending] at h
    cases h
    exact hi
  | cons op rest => exact runOp_keeps_inv (hi.asked rest) ((step_of_pending hpending).symm.trans h)

/-- Settles O48: every operation keeps its unit's part of the invariant, and the encoder's part holds R223's bounds. -/
theorem everyStepKeepsTheInvariant : Obligations.EveryStepKeepsTheInvariant := by
  refine ⟨fun _ _ => step_keeps_inv, fun s hi ha => ?_⟩
  have hsession := hi.enc_session (ha.trans_ne nofun)
  exact ⟨hsession.erun_le, hsession.eidx_le, hsession.erun_le_eidx, hsession.slots, hsession.olen_ge⟩

end Sys2Proof.Machine
end

section
/-! The whole encode (R221): a session takes its pixels one by one, and its end depends on their number alone. -/

namespace Sys2Proof.Machine

/-- The chunks of the pixels that a session still takes. -/
def sessionChunks (e : EncUnit) : List Pixel → List Instr
  | [] => []
  | p :: ps => pixelChunks e p ++ sessionChunks (afterPixel e p) ps

/-- The operations that take these pixels and end the session. -/
def sessionScript (pixels : List Pixel) : List HostOp := pixels.map .encPixel ++ [.encEnd]

/-- `t` is the machine after a session that has taken `pixels` from `e` on, and was ended. -/
structure EncodeEnds (e : EncUnit) (pixels : List Pixel) (t : State) : Prop where
  complete : e.eidx + pixels.length = e.etotal →
    t.enc.estatus = .done ∧ t.enc.obuf = Memory.append e.obuf (chunkBytes (sessionChunks e pixels) ++ Config.endMark)
  mismatch : e.eidx + pixels.length ≠ e.etotal →
    t.enc.estatus = .fault .lengthMismatch ∧ Answer.failed .lengthMismatch ∈ t.answers

theorem EncodeEnds.cons {e : EncUnit} {p : Pixel} {pixels : List Pixel} {t : State}
    (h : EncodeEnds (afterPixel e p) pixels t) : EncodeEnds e (p :: pixels) t := by
  have hcount : (afterPixel e p).eidx + pixels.length = e.eidx + (p :: pixels).length := by
    show e.eidx + 1 + pixels.length = e.eidx + (pixels.length + 1)
    omega
  refine ⟨fun hn => ?_, fun hn => h.mismatch (hcount ▸ hn)⟩
  obtain ⟨hdone, hout⟩ := h.complete (hcount.trans hn)
  refine ⟨hdone, hout.trans ?_⟩
  rw [afterPixel, Memory.append_append, sessionChunks, chunkBytes_append, List.append_assoc]
  rfl

/-- In a fault every operation of the session raises again (R218). -/
theorem run_session_fault (pixels : List Pixel) {f : Failure} {s : State} (hst : s.enc.estatus = .fault f) :
    ∃ t, Sys2Proof.core.run (pixels.length + 1) (s.asked (sessionScript pixels)) = .next t ∧
      t.enc.estatus = .fault f ∧ ∀ v ∈ s.answers, v ∈ t.answers := by
  induction pixels generalizing s with
  | nil =>
    have hend : runOp .encEnd (s.asked []) = .next ((answer (.failed f) s).asked []) := encEnd_fault (s := s.asked []) hst
    exact ⟨_, (run_asked_of_runOp hend).trans (run_zero _), hst, fun v hv => List.mem_append_left _ hv⟩
  | cons p ps ih =>
    obtain ⟨t, ht, hfault, hkept⟩ := ih (s := answer (.failed f) s) hst
    have hp : runOp (.encPixel p) (s.asked (sessionScript ps)) = .next ((answer (.failed f) s).asked (sessionScript ps)) :=
      encPixel_fault (s := s.asked (sessionScript ps)) hst p
    exact ⟨t, (run_asked_of_runOp hp).trans ht, hfault, fun v hv => hkept v (List.mem_append_left _ hv)⟩

/-- R221 from any point of a session. -/
theorem run_session (pixels : List Pixel) {s : State} (ha : s.enc.estatus = .active) (hs : EncSession s.enc) :
    ∃ t, Sys2Proof.core.run (pixels.length + 1) (s.asked (sessionScript pixels)) = .next t ∧ EncodeEnds s.enc pixels t := by
  induction pixels generalizing s with
  | nil =>
    by_cases hn : s.enc.eidx = s.enc.etotal
    · have hend : runOp .encEnd (s.asked []) = .next (closeFile (s.asked [])) := encEnd_complete (s := s.asked []) ha hn
      exact ⟨_, (run_asked_of_runOp hend).trans (run_zero _), fun _ => ⟨rfl, rfl⟩, fun hne => absurd hn hne⟩
    · have hend : runOp .encEnd (s.asked []) = .next (raise .enc .lengthMismatch (s.asked [])) :=
        encEnd_missing (s := s.asked []) ha hn
      exact ⟨_, (run_asked_of_runOp hend).trans (run_zero _), fun he => absurd he hn,
        fun _ => ⟨rfl, List.mem_append_right _ (List.mem_singleton.mpr rfl)⟩⟩
  | cons p ps ih =>
    by_cases hn : s.enc.eidx = s.enc.etotal
    · obtain ⟨t, ht, hfault, hkept⟩ := run_session_fault ps (s := raise .enc .lengthMismatch s) rfl
      have hp : runOp (.encPixel p) (s.asked (sessionScript ps)) =
          .next ((raise .enc .lengthMismatch s).asked (sessionScript ps)) :=
        encPixel_surplus (s := s.asked (sessionScript ps)) ha hn
      refine ⟨t, (run_asked_of_runOp hp).trans ht, fun he => ?_, fun _ => ⟨hfault, hkept _ ?_⟩⟩
      · rw [List.length_cons] at he
        omega
      · exact List.mem_append_right _ (List.mem_singleton.mpr rfl)
    · obtain ⟨t, ht, hends⟩ := ih (s := acceptPixel p s) ha (hs.afterPixel hn p)
      have hp : runOp (.encPixel p) (s.asked (sessionScript ps)) = .next ((acceptPixel p s).asked (sessionScript ps)) :=
        encPixel_eq (s := s.asked (sessionScript ps)) ha hn hs.erun_le
      exact ⟨t, (run_asked_of_runOp hp).trans ht, hends.cons⟩

/-- ENC after ENC_START (R200). -/
def startedUnit (h : Header) : EncUnit :=
  { ecache := cacheFill Config.encCacheInit
    elast := Config.lastInit
    erun := 0
    eidx := 0
    etotal := h.width.toNat * h.height.toNat
    ehdr := h
    estatus := .active
    obuf := Memory.append (Memory.append [] Config.magic) (serHeader h) }

theorem encStart_eq (h : Header) (s : State) : encStart h s = .next (answer .complete { s with enc := startedUnit h }) := rfl

theorem startedUnit_session (h : Header) : EncSession (startedUnit h) := (startEnc_session h State.reset).setStatus .active

/-- The whole encode ends, as its number of pixels has it. -/
theorem run_encodeScript (s : State) (h : Header) (pixels : List Pixel) :
    ∃ t, Sys2Proof.core.run (pixels.length + 2) (s.asked (encodeScript h pixels)) = .next t ∧
      EncodeEnds (startedUnit h) pixels t := by
  obtain ⟨t, ht, hends⟩ :=
    run_session pixels (s := answer .complete { s with enc := startedUnit h }) rfl (startedUnit_session h)
  have hstart : runOp (.encStart h) (s.asked (sessionScript pixels)) =
      .next ((answer .complete { s with enc := startedUnit h }).asked (sessionScript pixels)) := encStart_eq h _
  exact ⟨t, (run_asked_of_runOp hstart).trans ht, hends⟩

/-- Settles O44: the session starts with no pixel taken, and its total is the header's product. -/
theorem wholeEncodeEndsByItsPixelCount : Obligations.WholeEncodeEndsByItsPixelCount := by
  intro s h pixels
  obtain ⟨t, ht, hends⟩ := run_encodeScript s h pixels
  have hcount : (startedUnit h).eidx + pixels.length = pixels.length := Nat.zero_add _
  exact ⟨t, ht, fun hn => (hends.complete (hcount.trans hn)).1, fun hn => hends.mismatch fun he => hn (hcount.symm.trans he)⟩

end Sys2Proof.Machine
end

section
/-! The event that R222 excludes: a hit on a slot that nothing has been stored into. -/

namespace Sys2Proof.Machine

section
variable {last p : Pixel} {cache : PixelCache} {stored : List (Fin Config.cacheSlots)} {ps : List Pixel}

theorem hitsUnstored_repeat (hp : p = last) :
    hitsUnstored last cache stored (p :: ps) = hitsUnstored last cache stored ps := if_pos hp

theorem hitsUnstored_hit (hp : p ≠ last) (hhit : cache[(pixelHash p).val] = p) :
    hitsUnstored last cache stored (p :: ps) = (decide (pixelHash p ∉ stored) || hitsUnstored p cache stored ps) :=
  (if_neg hp).trans (if_pos hhit)

theorem hitsUnstored_miss (hp : p ≠ last) (hmiss : cache[(pixelHash p).val] ≠ p) :
    hitsUnstored last cache stored (p :: ps) = hitsUnstored p (cacheStore cache p) (pixelHash p :: stored) ps :=
  (if_neg hp).trans (if_neg hmiss)

end

/-- Every slot that nothing has been stored into holds the start fill (R31, R137). -/
def UnstoredFilled (cache : PixelCache) (stored : List (Fin Config.cacheSlots)) : Prop :=
  ∀ j : Fin Config.cacheSlots, j ∉ stored → cache[j.val] = Config.encCacheInit

theorem UnstoredFilled.store {cache : PixelCache} {stored : List (Fin Config.cacheSlots)} (h : UnstoredFilled cache stored)
    (p : Pixel) : UnstoredFilled (cacheStore cache p) (pixelHash p :: stored) := by
  intro j hj
  obtain ⟨hne, hnot⟩ := not_or.mp (List.mem_cons.not.mp hj)
  rw [cacheStore_get, if_neg hne]
  exact h j hnot

/-- The pixel that first takes such a hit is the start fill. -/
theorem first_unstored_hit (before : List Pixel) {last p : Pixel} {cache : PixelCache}
    {stored : List (Fin Config.cacheSlots)} (hfill : UnstoredFilled cache stored)
    (hbefore : hitsUnstored last cache stored before = false)
    (hhits : hitsUnstored last cache stored (before ++ [p]) = true) : p = Config.encCacheInit := by
  induction before generalizing last cache stored with
  | nil =>
    rw [List.nil_append] at hhits
    by_cases hp : p = last
    · rw [hitsUnstored_repeat hp] at hhits
      cases hhits
    · by_cases hhit : cache[(pixelHash p).val] = p
      · rw [hitsUnstored_hit hp hhit, hitsUnstored, Bool.or_false, decide_eq_true_eq] at hhits
        exact hhit.symm.trans (hfill _ hhits)
      · rw [hitsUnstored_miss hp hhit] at hhits
        cases hhits
  | cons q qs ih =>
    rw [List.cons_append] at hhits
    by_cases hq : q = last
    · rw [hitsUnstored_repeat hq] at hbefore hhits
      exact ih hfill hbefore hhits
    · by_cases hhit : cache[(pixelHash q).val] = q
      · rw [hitsUnstored_hit hq hhit, Bool.or_eq_false_iff] at hbefore
        rw [hitsUnstored_hit hq hhit, hbefore.1, Bool.false_or] at hhits
        exact ih hfill hbefore.2 hhits
      · rw [hitsUnstored_miss hq hhit] at hbefore hhits
        exact ih (hfill.store q) hbefore hhits

theorem unstoredFilled_start : UnstoredFilled (cacheFill Config.encCacheInit) [] := fun j _ => cacheFill_get _ j

/-- R222's sufficient condition: the image does not hold the start fill. -/
theorem hitsUnstored_eq_false {pixels : List Pixel} (h : Config.encCacheInit ∉ pixels) :
    hitsUnstored Config.lastInit (cacheFill Config.encCacheInit) [] pixels = false := by
  induction pixels using List.reverseRecOn with
  | nil => rfl
  | append_singleton before p ih =>
    rw [List.mem_append, List.mem_singleton, not_or] at h
    obtain ⟨hbefore, hp⟩ := h
    exact Bool.eq_false_iff.mpr fun hhits =>
      hp (first_unstored_hit before unstoredFilled_start (ih hbefore) hhits).symm

end Sys2Proof.Machine
end

section
/-! No chunk of a session is read as the end marker (R144): an Index of slot 0 is followed by a byte that is not 0, or by
the marker, whose first seven bytes are all 0. -/

namespace Sys2Proof.Machine

/-- Only an Index of slot 0 begins with the byte 0. -/
theorem encode_append_ne_endTail {i : Instr} (hwf : i.wellFormed = true) (hend : i ≠ .endMarker) (hzero : i ≠ .index 0)
    (after : List Byte) : (encode i ++ after).take 7 ≠ Config.endTail := by
  intro htail
  have hparse := parseView_encode hwf hend (after := after) (fun h => hzero h.1) 0
  cases hbytes : encode i ++ after with
  | nil => rw [hbytes] at htail; cases htail
  | cons tag rest =>
    rw [hbytes] at htail hparse
    have htag : tag = 0 := (List.cons.inj htail).1
    subst htag
    by_cases hrest : rest.take 7 = Config.endTail
    · exact hend (Parsed.item.inj ((parseView_endMarker hrest false 0).symm.trans hparse)).1.symm
    · exact hzero (Parsed.item.inj ((parseView_zero_of_not_tail hrest 0).symm.trans hparse)).1.symm

theorem missChunk_ne_index (e : EncUnit) (p : Pixel) (idx : Byte) : missChunk e p ≠ .index idx := by
  obtain ⟨_, _, _, h⟩ | ⟨_, _, _, h⟩ | h | h := missChunk_cases e p
  all_goals rw [h]; exact nofun

theorem newChunk_eq_index_zero {e : EncUnit} {p : Pixel} (h : newChunk e p = .index 0) :
    CacheHit e p ∧ (pixelHash p).val = 0 := by
  by_cases hhit : CacheHit e p
  · rw [newChunk_hit hhit, Instr.index.injEq] at h
    exact ⟨hhit, (slotByte_toNat _).symm.trans (congrArg BitVec.toNat h)⟩
  · exact absurd ((newChunk_miss hhit).symm.trans h) (missChunk_ne_index e p 0)

/-- One slot holds one pixel. -/
theorem CacheHit.unique {e : EncUnit} {p q : Pixel} (hp : CacheHit e p) (hq : CacheHit e q) (h : pixelHash p = pixelHash q) :
    p = q := by
  simp only [CacheHit, h] at hp hq
  exact hp.symm.trans hq

theorem run_append_ne_endTail {n : Byte} (hlo : n ≠ 0) (hhi : n.toNat ≤ 62) (after : List Byte) :
    (encode (.run n) ++ after).take 7 ≠ Config.endTail :=
  encode_append_ne_endTail (run_emittedFor hlo hhi Config.lastInit).1 nofun nofun after

/-- Once the last pixel stands in slot 0, what follows is no tail of the marker: the pixel would have to hit that slot
again, and it would be a repeat. -/
theorem session_ne_endTail (pixels : List Pixel) {e : EncUnit} (hrun : e.erun.toNat ≤ 61) (hlast : CacheHit e e.elast)
    (hzero : (pixelHash e.elast).val = 0) :
    (chunkBytes (sessionChunks e pixels) ++ Config.endMark).take 7 ≠ Config.endTail := by
  induction pixels generalizing e with
  | nil =>
    have hmark : Config.endMark.take 7 ≠ Config.endTail := by decide
    exact hmark
  | cons p ps ih =>
    rw [sessionChunks, chunkBytes_append, List.append_assoc]
    by_cases hp : p = e.elast
    · by_cases hdue : RunDue e
      · rw [pixelChunks_due hp hdue, pendingRun_of_ne (run_succ_ne_zero hrun), chunkBytes_singleton]
        exact run_append_ne_endTail (run_succ_ne_zero hrun) (by rw [run_succ_toNat hrun]; omega) _
      · rw [pixelChunks_counted hp hdue]
        have hcounted : (afterPixel e p).erun.toNat = e.erun.toNat + 1 :=
          (congrArg BitVec.toNat (runAfter_counted hp hdue)).trans (run_succ_toNat hrun)
        have hcache : (afterPixel e p).ecache = e.ecache := cacheAfter_repeat hp
        refine ih ?_ ?_ ?_
        · unfold RunDue at hdue
          omega
        · show (afterPixel e p).ecache[(pixelHash p).val] = p
          rw [hp] at hcache ⊢
          rw [hcache]
          exact hlast
        · exact hp ▸ hzero
    · rw [pixelChunks_new hp, chunkBytes_append, List.append_assoc]
      by_cases hnone : e.erun = 0
      · rw [hnone, pendingRun_zero, chunkBytes_nil, chunkBytes_singleton, List.nil_append]
        obtain ⟨hwf, hend, _, _⟩ := newChunk_emittedFor e p
        refine encode_append_ne_endTail hwf hend (fun hindex => hp ?_) _
        obtain ⟨hhit, hslot⟩ := newChunk_eq_index_zero hindex
        exact hhit.unique hlast (Fin.ext (hslot.trans hzero.symm))
      · rw [pendingRun_of_ne hnone, chunkBytes_singleton]
        exact run_append_ne_endTail hnone (by omega) _

end Sys2Proof.Machine
end

section
/-! The decoder on an encoder's output (R137, R222): in step with the encoder it replays each pending run, and from the chunk
of a new pixel it makes that very pixel. -/

namespace Sys2Proof.Machine

/-! ### Calls of DEC_NEXT -/

/-- `n` calls of DEC_NEXT lead from `s` to `t`, whatever else HOST has asked for. -/
def Pulls (n : Nat) (s t : State) : Prop :=
  ∀ ops, Sys2Proof.core.run n (s.asked (List.replicate n .decNext ++ ops)) = .next (t.asked ops)

theorem Pulls.refl (s : State) : Pulls 0 s s := fun _ => run_zero _

theorem Pulls.one {s t : State} (h : ∀ ops, decNext (s.asked ops) = .next (t.asked ops)) : Pulls 1 s t := fun ops =>
  (run_asked_of_runOp (op := .decNext) (h ops)).trans (run_zero _)

theorem run_add_of_next {m n : Nat} {s t : State} (h : Sys2Proof.core.run m s = .next t) :
    Sys2Proof.core.run (m + n) s = Sys2Proof.core.run n t := by
  induction m generalizing s with
  | zero =>
    cases (run_zero s).symm.trans h
    rw [Nat.zero_add]
  | succ m ih =>
    obtain ⟨u, hu, ht⟩ := andThen_eq_next ((run_succ m s).symm.trans h)
    rw [Nat.add_right_comm]
    exact (run_succ_of_step hu).trans (ih ht)

theorem Pulls.trans {m n : Nat} {s t u : State} (h : Pulls m s t) (h' : Pulls n t u) : Pulls (m + n) s u := fun ops => by
  rw [List.replicate_add, List.append_assoc]
  exact (run_add_of_next (h _)).trans (h' ops)

/-- The calls that lead from `s` to `t` are as many as `pixels`, and have handed out just these. -/
structure HandsOut (pixels : List Pixel) (s t : State) : Prop where
  calls : Pulls pixels.length s t
  answers : t.answers = s.answers ++ pixels.map .pixel

/-- From `s` the session hands out `pixels` and then `Done`, and ends in `v`. -/
structure Finishes (pixels : List Pixel) (s v : State) : Prop where
  calls : Pulls (pixels.length + 1) s v
  answers : v.answers = s.answers ++ (pixels.map .pixel ++ [.done])
  done : v.dec.dstatus = .done

theorem HandsOut.nil (s : State) : HandsOut [] s s := ⟨.refl s, (List.append_nil _).symm⟩

theorem HandsOut.append {first rest : List Pixel} {s t u : State} (h : HandsOut first s t) (h' : HandsOut rest t u) :
    HandsOut (first ++ rest) s u :=
  ⟨List.length_append ▸ h.calls.trans h'.calls, by rw [h'.answers, h.answers, List.map_append, List.append_assoc]⟩

theorem HandsOut.finishes {first rest : List Pixel} {s t v : State} (h : HandsOut first s t) (h' : Finishes rest t v) :
    Finishes (first ++ rest) s v where
  calls := by
    rw [List.length_append, Nat.add_assoc]
    exact h.calls.trans h'.calls
  answers := by rw [h'.answers, h.answers, List.map_append, List.append_assoc, List.append_assoc]
  done := h'.done

/-! ### Reading the output -/

/-- The decoder is in an open session, between two chunks, with `bs` still to be read. -/
structure Reading (bs : List Byte) (s : State) : Prop where
  active : s.dec.dstatus = .active
  drun : s.dec.drun = 0
  ibuf_wf : Memory.wf s.ibuf = true
  unread : (Memory.bytes s.ibuf).drop s.dec.pos = bs

theorem Reading.parse {bs : List Byte} {s : State} (h : Reading bs s) :
    parseChunk (cursorOf s) = parseView false s.dec.pos bs := by
  have hcursor : cursorOf s = ⟨Memory.ofBytes (Memory.bytes s.ibuf), s.dec.pos⟩ :=
    congrArg (Cursor.mk · s.dec.pos) ((Memory.wf_iff s.ibuf).mp h.ibuf_wf)
  rw [hcursor, parseChunk_ofBytes, h.unread]

/-- `s` with the cursor moved over a chunk. -/
def skipChunk (i : Instr) (s : State) : State := setPos (s.dec.pos + (encode i).length) s

theorem Reading.skipChunk {i : Instr} {after : List Byte} {s : State} (h : Reading (encode i ++ after) s) :
    Reading after (skipChunk i s) :=
  ⟨h.active, h.drun, h.ibuf_wf, by
    show (Memory.bytes s.ibuf).drop (s.dec.pos + (encode i).length) = after
    rw [← List.drop_drop, h.unread, List.drop_left]⟩

theorem Reading.parse_encode {i : Instr} {after : List Byte} {s : State} (h : Reading (encode i ++ after) s)
    (hwf : i.wellFormed = true) (hend : i ≠ .endMarker) (htail : ¬(i = .index 0 ∧ after.take 7 = Config.endTail)) :
    parseChunk (cursorOf s) = .item i (s.dec.pos + (encode i).length) :=
  h.parse.trans (parseView_encode hwf hend htail _)

/-! ### In step -/

/-- R137: the last pixels agree, and so do the slots that have been stored into. -/
structure InStep (e : EncUnit) (stored : List (Fin Config.cacheSlots)) (d : DecUnit) : Prop where
  last : d.dlast = e.elast
  slots : ∀ j ∈ stored, d.dcache[j.val] = e.ecache[j.val]

section
variable {e : EncUnit} {stored : List (Fin Config.cacheSlots)} {p : Pixel} {ps : List Pixel} {after : List Byte} {s : State}

theorem InStep.congr {e' : EncUnit} {d d' : DecUnit} (h : InStep e stored d)
    (hlast : d'.dlast = d.dlast) (hcache : d'.dcache = d.dcache) (helast : e'.elast = e.elast)
    (hecache : e'.ecache = e.ecache) : InStep e' stored d' :=
  ⟨hlast.trans (h.last.trans helast.symm), fun j hj => by rw [hcache, hecache]; exact h.slots j hj⟩

/-- A pending run that was written is replayed to its end. -/
theorem handsOut_pendingRun {n : Byte} (hn : n.toNat ≤ 62) (hs : InStep e stored s.dec)
    (hread : Reading (chunkBytes (pendingRun n) ++ after) s) :
    ∃ t, HandsOut (List.replicate n.toNat e.elast) s t ∧ InStep e stored t.dec ∧ Reading after t := by
  by_cases hzero : n = 0
  · subst hzero
    exact ⟨s, .nil s, hs, hread⟩
  · rw [pendingRun_of_ne hzero, chunkBytes_singleton] at hread
    obtain ⟨hwf, _⟩ := run_emittedFor hzero hn Config.lastInit
    have hparse := hread.parse_encode hwf nofun (fun h => nomatch h.1)
    refine ⟨{ skipChunk (.run n) s with answers := s.answers ++ List.replicate n.toNat (.pixel s.dec.dlast) }, ⟨?_, ?_⟩,
      hs.congr rfl rfl rfl rfl, hread.active, hread.drun, hread.ibuf_wf, hread.skipChunk.unread⟩
    · rw [List.length_replicate]
      exact fun ops => (runYieldsLengthPixels s n _ ops hread.active hread.drun hparse).2
    · rw [List.map_replicate, hs.last]

/-! ### The pixel of a new chunk -/

theorem shiftedPixel_of_deltas {last p : Pixel} {dr dg db : Int} (hr : BitVec.ofInt 8 dr = p.r - last.r)
    (hg : BitVec.ofInt 8 dg = p.g - last.g) (hb : BitVec.ofInt 8 db = p.b - last.b) (ha : p.a = last.a) :
    shiftedPixel last dr dg db = p := by
  have hadd (x y : Byte) : x + (y - x) = y := (BitVec.add_comm _ _).trans (BitVec.sub_add_cancel _ _)
  rw [shiftedPixel, add8_eq_add, add8_eq_add, add8_eq_add, hr, hg, hb, hadd, hadd, hadd, ← ha]

/-- R176, R177 undo R208: the decoder adds back what the encoder subtracted. -/
theorem exec_deltaChunk (ha : p.a = s.dec.dlast.a) :
    exec (deltaChunk s.dec.dlast p) s = .next (producePixel p s) := by
  have hwf := deltaChunk_wf s.dec.dlast p
  unfold deltaChunk at hwf ⊢
  simp only [sub8_eq_sub, s8_eq_toInt, subs8_toInt] at hwf ⊢
  split at hwf
  next hdiff =>
    rw [if_pos hdiff, exec, execDiff, ifWellFormed_true hwf,
      shiftedPixel_of_deltas BitVec.ofInt_toInt BitVec.ofInt_toInt BitVec.ofInt_toInt ha]
  next hdiff =>
    rw [if_neg hdiff]
    split at hwf
    next hluma =>
      have hrel (x y : Byte) : BitVec.ofInt 8 ((x - y).toInt + y.toInt) = x := by
        rw [BitVec.ofInt_add, BitVec.ofInt_toInt, BitVec.ofInt_toInt, BitVec.sub_add_cancel]
      rw [if_pos hluma, exec, execLuma, ifWellFormed_true hwf,
        shiftedPixel_of_deltas (hrel _ _) BitVec.ofInt_toInt (hrel _ _) ha]
    next hluma =>
      rw [if_neg hluma, exec, execRgb, ← ha]

theorem exec_missChunk (h : s.dec.dlast = e.elast) :
    exec (missChunk e p) s = .next (producePixel p s) := by
  by_cases halpha : p.a = e.elast.a
  · rw [missChunk_sameAlpha halpha, ← h]
    exact exec_deltaChunk (h ▸ halpha)
  · rw [missChunk_otherAlpha halpha]
    rfl

/-- The slots stored into after one more pixel (R204, R206, R207). -/
def storedAfter (e : EncUnit) (stored : List (Fin Config.cacheSlots)) (p : Pixel) : List (Fin Config.cacheSlots) :=
  if CacheHit e p then stored else pixelHash p :: stored

/-- In step, the decoder makes the new pixel from its chunk, unless the chunk names a slot that was never stored into. -/
theorem exec_newChunk (hs : InStep e stored s.dec) (hstored : CacheHit e p → pixelHash p ∈ stored) :
    exec (newChunk e p) s = .next (producePixel p s) := by
  by_cases hhit : CacheHit e p
  · rw [newChunk_hit hhit, exec_index_slot, hs.slots _ (hstored hhit), hhit]
  · rw [newChunk_miss hhit, exec_missChunk hs.last]

/-- R137 is kept: the decoder stores every new pixel, and the encoder the ones that were not in place. -/
theorem InStep.newPixel (hs : InStep e stored s.dec) (hp : p ≠ e.elast) :
    InStep (afterPixel e p) (storedAfter e stored p) (producePixel p s).dec := by
  refine ⟨rfl, fun j hj => ?_⟩
  show (cacheStore s.dec.dcache p)[j.val] = (cacheAfter e p)[j.val]
  rw [cacheStore_get]
  by_cases hhit : CacheHit e p
  · rw [storedAfter, if_pos hhit] at hj
    rw [cacheAfter_hit hhit]
    split
    next hslot => subst hslot; exact hhit.symm
    next => exact hs.slots j hj
  · rw [storedAfter, if_neg hhit] at hj
    rw [cacheAfter_miss hp hhit, cacheStore_get]
    split
    · rfl
    next hslot => exact hs.slots j ((List.mem_cons.mp hj).resolve_left hslot)

/-- What R222's premise says of one new pixel, and of those after it. -/
theorem hitsUnstored_new (hp : p ≠ e.elast) (h : hitsUnstored e.elast e.ecache stored (p :: ps) = false) :
    (CacheHit e p → pixelHash p ∈ stored) ∧
      hitsUnstored (afterPixel e p).elast (afterPixel e p).ecache (storedAfter e stored p) ps = false := by
  show _ ∧ hitsUnstored p (cacheAfter e p) _ ps = false
  by_cases hhit : CacheHit e p
  · rw [hitsUnstored_hit hp hhit, Bool.or_eq_false_iff, decide_eq_false_iff_not, not_not] at h
    rw [cacheAfter_hit hhit, storedAfter, if_pos hhit]
    exact ⟨fun _ => h.1, h.2⟩
  · rw [hitsUnstored_miss hp hhit] at h
    rw [cacheAfter_miss hp hhit, storedAfter, if_neg hhit]
    exact ⟨fun hh => absurd hh hhit, h⟩

/-- One call reads the chunk of a new pixel and hands out that pixel. -/
theorem handsOut_newChunk (hread : Reading (encode (newChunk e p) ++ after) s) (hs : InStep e stored s.dec)
    (hstored : CacheHit e p → pixelHash p ∈ stored) (htail : newChunk e p = .index 0 → after.take 7 ≠ Config.endTail) :
    HandsOut [p] s (producePixel p (skipChunk (newChunk e p) s)) := by
  obtain ⟨hwf, hend, _⟩ := newChunk_emittedFor e p
  have hparse := hread.parse_encode hwf hend fun h => htail h.1 h.2
  refine ⟨.one fun ops => ?_, rfl⟩
  exact (decNext_item (s := s.asked ops) hread.active hread.drun hparse).trans
    (exec_newChunk (s := (skipChunk (newChunk e p) s).asked ops) ⟨hs.last, hs.slots⟩ hstored)

/-! ### The whole session -/

/-- An Index of slot 0 is read as such, whatever pixels follow. -/
theorem session_after_index_zero (hs : EncSession (afterPixel e p)) (h : newChunk e p = .index 0)
    (pixels : List Pixel) :
    (chunkBytes (sessionChunks (afterPixel e p) pixels) ++ Config.endMark).take 7 ≠ Config.endTail := by
  obtain ⟨hhit, hslot⟩ := newChunk_eq_index_zero h
  have hcache : (afterPixel e p).ecache = e.ecache := cacheAfter_hit hhit
  have hlast : CacheHit (afterPixel e p) p := by rw [CacheHit, hcache]; exact hhit
  exact session_ne_endTail pixels hs.erun_le hlast hslot

/-- One accepted pixel, read back: what the decoder hands out for its chunks, with the run that is pending afterwards, is the
run that was pending before, and the pixel. -/
theorem handsOut_pixel (hrun : e.erun.toNat ≤ 61) (hhits : hitsUnstored e.elast e.ecache stored (p :: ps) = false)
    (hs : InStep e stored s.dec) (hread : Reading (chunkBytes (pixelChunks e p) ++ after) s)
    (htail : newChunk e p = .index 0 → after.take 7 ≠ Config.endTail) :
    ∃ first t stored', HandsOut first s t ∧
      first ++ List.replicate (afterPixel e p).erun.toNat p = List.replicate e.erun.toNat e.elast ++ [p] ∧
      InStep (afterPixel e p) stored' t.dec ∧ Reading after t ∧
      hitsUnstored (afterPixel e p).elast (afterPixel e p).ecache stored' ps = false := by
  by_cases hp : p = e.elast
  · have hlast : (afterPixel e p).elast = e.elast := hp
    have hcache : (afterPixel e p).ecache = e.ecache := cacheAfter_repeat hp
    have hruns : List.replicate (e.erun + 1).toNat e.elast = List.replicate e.erun.toNat e.elast ++ [p] := by
      rw [run_succ_toNat hrun, List.replicate_succ', hp]
    rw [hitsUnstored_repeat hp, ← hlast, ← hcache] at hhits
    by_cases hdue : RunDue e
    · have hafter : (afterPixel e p).erun = 0 := runAfter_due hp hdue
      rw [pixelChunks_due hp hdue] at hread
      obtain ⟨t, hout, ht, hread'⟩ := handsOut_pendingRun (by rw [run_succ_toNat hrun]; omega) hs hread
      exact ⟨_, t, stored, hout, by rw [hafter, ← hruns]; exact List.append_nil _, ht.congr rfl rfl hlast hcache, hread',
        hhits⟩
    · have hafter : (afterPixel e p).erun = e.erun + 1 := runAfter_counted hp hdue
      rw [pixelChunks_counted hp hdue] at hread
      exact ⟨[], s, stored, .nil s, by rw [hafter, ← hruns, List.nil_append, hp], hs.congr rfl rfl hlast hcache, hread,
        hhits⟩
  · have hafter : (afterPixel e p).erun = 0 := runAfter_new hp
    rw [pixelChunks_new hp, chunkBytes_append, List.append_assoc, chunkBytes_singleton] at hread
    obtain ⟨t, hflushed, ht, hread'⟩ := handsOut_pendingRun (by omega) hs hread
    obtain ⟨hstored, hhits'⟩ := hitsUnstored_new hp hhits
    have hskip := hread'.skipChunk
    have hskipped : InStep e stored (skipChunk (newChunk e p) t).dec := ht.congr rfl rfl rfl rfl
    exact ⟨_, _, storedAfter e stored p, hflushed.append (handsOut_newChunk hread' ht hstored htail),
      by rw [hafter]; exact List.append_nil _, hskipped.newPixel hp,
      ⟨hskip.active, hskip.drun, hskip.ibuf_wf, hskip.unread⟩, hhits'⟩

theorem finishes_endMarker (hread : Reading Config.endMark s) : ∃ v, Finishes [] s v := by
  have hparse : parseChunk (cursorOf s) = .item .endMarker (s.dec.pos + 1) := by
    rw [hread.parse]
    exact parseView_endMarker rfl false _
  exact ⟨answer .done (setStatus .dec .done (setPos (s.dec.pos + 1) s)),
    .one fun ops => decNext_item (s := s.asked ops) hread.active hread.drun hparse, rfl, rfl⟩

/-- From any point of a session that is in step, the decoder hands out the run that is pending in the encoder, the pixels
still to come, and `Done`. -/
theorem finishes_session (pixels : List Pixel) (he : EncSession e) (hcount : e.eidx + pixels.length = e.etotal)
    (hhits : hitsUnstored e.elast e.ecache stored pixels = false) (hs : InStep e stored s.dec)
    (hread : Reading (chunkBytes (sessionChunks e pixels) ++ Config.endMark) s) :
    ∃ v, Finishes (List.replicate e.erun.toNat e.elast ++ pixels) s v := by
  induction pixels generalizing e stored s with
  | nil =>
    rw [he.run_flushed hcount]
    exact finishes_endMarker hread
  | cons p ps ih =>
    rw [List.length_cons] at hcount
    have he' := he.afterPixel (by omega) p
    have hcount' : (afterPixel e p).eidx + ps.length = (afterPixel e p).etotal := by
      show e.eidx + 1 + ps.length = e.etotal
      omega
    rw [sessionChunks, chunkBytes_append, List.append_assoc] at hread
    obtain ⟨first, t, stored', hout, hpixels, hs', hread', hhits'⟩ :=
      handsOut_pixel he.erun_le hhits hs hread fun hzero => session_after_index_zero he' hzero ps
    obtain ⟨v, hv⟩ := ih he' hcount' hhits' hs' hread'
    have hall : first ++ (List.replicate (afterPixel e p).erun.toNat (afterPixel e p).elast ++ ps) =
        List.replicate e.erun.toNat e.elast ++ p :: ps := by
      rw [← List.append_assoc]
      exact (congrArg (· ++ ps) hpixels).trans (List.append_assoc _ _ _)
    exact ⟨v, hall ▸ hout.finishes hv⟩

end

/-! ### From DEC_START on -/

/-- A file as an encoder frames it (R76). -/
def framed (h : Header) (body : List Byte) : List Byte := Config.magic ++ serHeader h ++ body

/-- The machine once DEC_START has read the framing. -/
def openedOn (h : Header) (body : List Byte) (s : State) : State :=
  answer (.header h) { startDec (framed h body) s with
    dec := { (startDec (framed h body) s).dec with pos := 14, dhdr := h, dstatus := .active } }

theorem decStart_framed (h : Header) (body : List Byte) (s : State) :
    decStart (framed h body) s = .next (openedOn h body s) := by
  have hlong : ¬(framed h body).length < 4 := by
    rw [framed, List.length_append, List.length_append, serHeader_length]
    omega
  have hmagic : (framed h body).take 4 = Config.magic := rfl
  have hrecord : ((framed h body).drop 4).take 10 = serHeader h := rfl
  rw [decStart_eq, if_neg hlong, if_neg (not_not.mpr hmagic), hrecord, parseHeader_serHeader]
  rfl

theorem openedOn_reading (h : Header) (body : List Byte) (s : State) : Reading body (openedOn h body s) where
  active := rfl
  drun := rfl
  ibuf_wf := Memory.ofBytes_wf _
  unread := congrArg (List.drop 14) (Memory.ofBytes_bytes (framed h body))

/-- At the start nothing is stored, and both last pixels are the same (R22, R32). -/
theorem openedOn_inStep (h : Header) (body : List Byte) (s : State) :
    InStep (startedUnit h) [] (openedOn h body s).dec := ⟨rfl, nofun⟩

/-- R222: the output of a whole encode, and what a whole decode makes of it. -/
theorem decode_encode_session {h : Header} {pixels : List Pixel} {t : State} (u : State)
    (hcount : pixels.length = h.width.toNat * h.height.toNat)
    (hhits : hitsUnstored Config.lastInit (cacheFill Config.encCacheInit) [] pixels = false)
    (hends : EncodeEnds (startedUnit h) pixels t) :
    ∃ v, Sys2Proof.core.run (pixels.length + 2)
        (u.asked (decodeScript (Memory.bytes t.enc.obuf) (pixels.length + 1))) = .next v ∧
      v.answers = u.answers ++ (.header h :: (pixels.map .pixel ++ [.done])) ∧ v.dec.dstatus = .done := by
  have hfirst : (startedUnit h).eidx + pixels.length = (startedUnit h).etotal := (Nat.zero_add _).trans hcount
  obtain ⟨_, hobuf⟩ := hends.complete hfirst
  have hbytes : Memory.bytes t.enc.obuf =
      framed h (chunkBytes (sessionChunks (startedUnit h) pixels) ++ Config.endMark) := by
    rw [hobuf, Memory.append_bytes]
    rfl
  rw [hbytes]
  generalize hbody : chunkBytes (sessionChunks (startedUnit h) pixels) ++ Config.endMark = body
  obtain ⟨v, hcalls, hanswers, hdone⟩ :=
    finishes_session pixels (startedUnit_session h) hfirst hhits (openedOn_inStep h body u)
      (hbody ▸ openedOn_reading h body u)
  have hstart : runOp (.decStart (framed h body)) (u.asked (List.replicate (pixels.length + 1) .decNext)) =
      .next ((openedOn h body u).asked (List.replicate (pixels.length + 1) .decNext)) := decStart_framed h body _
  have hpulled := hcalls []
  rw [List.append_nil] at hpulled
  exact ⟨v.asked [], (run_asked_of_runOp hstart).trans hpulled, hanswers.trans (List.append_assoc _ _ _), hdone⟩

/-- Settles O45: at their starts the two units are in step with nothing stored, and they stay so to the end marker. -/
theorem decodeAfterEncodeGivesThePixels : Obligations.DecodeAfterEncodeGivesThePixels := by
  refine ⟨fun s t u h pixels hcount hhits ht => ?roundTrip, fun _ => hitsUnstored_eq_false,
    fun before _ => first_unstored_hit before unstoredFilled_start, ?smallest⟩
  case roundTrip =>
    obtain ⟨t', ht', hends⟩ := run_encodeScript s h pixels
    cases ht.symm.trans ht'
    exact decode_encode_session u hcount hhits hends
  case smallest => exact ⟨_, _, rfl, rfl, rfl⟩

end Sys2Proof.Machine
end

section
/-! The byte adapters (R240 to R244). Both statements about positions are about one thing, a byte list that holds a pixel
as its `k`-th group of four. The bytes written hold the pixels given; the pixels read, written again, give back the whole
groups (R244), so those groups hold the pixels read. -/

namespace Sys2Proof.Machine

/-- Bytes `4k` to `4k + 3` of `bs` are r, g, b, a of `p`. -/
def HoldsPixel (bs : List Byte) (k : Nat) (p : Pixel) : Prop :=
  bs[4 * k]? = some p.r ∧ bs[4 * k + 1]? = some p.g ∧ bs[4 * k + 2]? = some p.b ∧ bs[4 * k + 3]? = some p.a

theorem HoldsPixel.of_take {bs : List Byte} {n k : Nat} {p : Pixel} (h : HoldsPixel (bs.take n) k p) :
    HoldsPixel bs k p := by
  simp only [HoldsPixel, List.getElem?_take, Option.ite_none_right_eq_some] at h
  obtain ⟨⟨-, hr⟩, ⟨-, hg⟩, ⟨-, hb⟩, -, ha⟩ := h
  exact ⟨hr, hg, hb, ha⟩

@[simp] theorem pixToBytes_length (ps : List Pixel) : (pixToBytes ps).length = 4 * ps.length := by
  induction ps with
  | nil => rfl
  | cons p ps ih => simp only [pixToBytes, List.length_cons, ih, Nat.mul_succ]

theorem pixToBytes_holdsPixel {ps : List Pixel} {k : Nat} {p : Pixel} (h : ps[k]? = some p) :
    HoldsPixel (pixToBytes ps) k p := by
  induction ps generalizing k with
  | nil => cases h
  | cons q qs ih =>
    cases k with
    | zero => cases h; exact ⟨rfl, rfl, rfl, rfl⟩
    | succ k => exact ih h

theorem bytesToPix_pixToBytes (ps : List Pixel) : bytesToPix (pixToBytes ps) = ps := by
  induction ps with
  | nil => rfl
  | cons p ps ih => exact congrArg (p :: ·) ih

theorem pixToBytes_bytesToPix : ∀ bs : List Byte, pixToBytes (bytesToPix bs) = bs.take (bs.length - bs.length % 4)
  | [] | [_] | [_, _] | [_, _, _] => rfl
  | r :: g :: b :: a :: rest => by
    have hkept : rest.length + 4 - (rest.length + 4) % 4 = rest.length - rest.length % 4 + 4 := by omega
    show r :: g :: b :: a :: pixToBytes (bytesToPix rest) = _
    rw [pixToBytes_bytesToPix rest, show (r :: g :: b :: a :: rest).length = rest.length + 4 from rfl, hkept]
    rfl

theorem bytesToPix_length (bs : List Byte) : (bytesToPix bs).length = bs.length / 4 := by
  have hwritten := congrArg List.length (pixToBytes_bytesToPix bs)
  rw [pixToBytes_length, List.length_take] at hwritten
  omega

theorem holdsPixel_of_bytesToPix {bs : List Byte} {k : Nat} {p : Pixel} (h : (bytesToPix bs)[k]? = some p) :
    HoldsPixel bs k p :=
  HoldsPixel.of_take (pixToBytes_bytesToPix bs ▸ pixToBytes_holdsPixel h)

/-- Settles O13: the pixels read are held by the bytes, and there is one for each whole group. -/
theorem bytesToPixGroupsFourBytes : Obligations.BytesToPixGroupsFourBytes := by
  intro bs
  refine ⟨bytesToPix_length bs, fun k hk => ?_⟩
  have hread := List.getElem?_eq_getElem (hk.trans_eq (bytesToPix_length bs).symm)
  exact ⟨_, _, _, _, hread, holdsPixel_of_bytesToPix hread⟩

/-- Settles O14, by induction on the pixels. -/
theorem pixToBytesWritesRgba : Obligations.PixToBytesWritesRgba :=
  fun ps => ⟨pixToBytes_length ps, fun _ _ h => pixToBytes_holdsPixel h⟩

/-- Settles O15: one induction on the pixels, and one on the bytes by groups of four. -/
theorem byteAdaptersAreInverse : Obligations.ByteAdaptersAreInverse :=
  ⟨bytesToPix_pixToBytes, pixToBytes_bytesToPix⟩

end Sys2Proof.Machine
end

section
/-! How an operation ends (R261): a step takes its request off and adds one answer, and a refusal from a sound state is one
of R262's table. -/

namespace Sys2Proof.Machine

/-! ### A next state: the request is taken off, and one answer is added -/

/-- No operation asks for another one: only HOST does (R263). -/
theorem runOp_keeps_pending {op : HostOp} {s t : State} (h : runOp op s = .next t) : t.pending = s.pending := by
  match hop : op.agent with
  | some u =>
    obtain ⟨r, _, rfl⟩ := (runOp_confinedTo hop).next_cases h
    cases u with
    | dec => rfl
    | enc => rfl
  | none =>
    obtain ⟨v, rfl⟩ := runOp_pure_next hop h
    rfl

/-- Exactly one answer has been handed to HOST between `s` and `t`. -/
def AnswersOnce (s t : State) : Prop := ∃ v, t.answers = s.answers ++ [v]

theorem decStart_answersOnce {input : List Byte} {s t : State} (h : decStart input s = .next t) : AnswersOnce s t := by
  obtain ⟨f, pos, hraised⟩ | ⟨hdr, hopened⟩ := decStart_fails_or_opens input s
  · cases hraised.symm.trans h; exact ⟨_, rfl⟩
  · cases hopened.symm.trans h; exact ⟨_, rfl⟩

theorem exec_answersOnce {i : Instr} {s t : State} (h : exec i s = .next t) : AnswersOnce s t := by
  obtain ⟨_, _, p, rfl⟩ | ⟨n, _, _, rfl⟩ | ⟨_, rfl⟩ := exec_next_cases h
  · exact ⟨_, rfl⟩
  · exact ⟨_, rfl⟩
  · exact ⟨_, rfl⟩

theorem decNext_answersOnce {s t : State} (h : decNext s = .next t) : AnswersOnce s t := by
  cases hst : s.dec.dstatus with
  | idle => cases (decNext_idle hst).symm.trans h
  | done => cases (decNext_done hst).symm.trans h; exact ⟨_, rfl⟩
  | fault f => cases (decNext_fault hst).symm.trans h; exact ⟨_, rfl⟩
  | active =>
    obtain ⟨_, rfl⟩ | ⟨_, i, pos, _, hexec⟩ | ⟨_, f, pos, rfl⟩ := decNext_active_cases hst h
    · exact ⟨_, rfl⟩
    · exact exec_answersOnce (s := setPos pos s) hexec
    · exact ⟨_, rfl⟩

theorem runOp_answersOnce {op : HostOp} {s t : State} (h : runOp op s = .next t) : AnswersOnce s t := by
  match hop : op.agent with
  | some .dec =>
    cases op with
    | decStart input => exact decStart_answersOnce h
    | decNext => exact decNext_answersOnce h
    | encStart | encPixel | encEnd | hash | parseChunk | serChunk | bytesToPix | pixToBytes => cases hop
  | some .enc =>
    obtain ⟨hcomplete, _⟩ | ⟨f, hfailed, _⟩ := encOperationsAnswerCompleteOrFail s t op hop h
    · exact ⟨_, hcomplete⟩
    · exact ⟨_, hfailed⟩
  | none =>
    obtain ⟨v, rfl⟩ := runOp_pure_next hop h
    exact ⟨v, rfl⟩

/-! ### A refusal: the table of R262 -/

theorem decStart_ne_refused (input : List Byte) (s : State) (r : Refusal) : decStart input s ≠ .refused r := by
  obtain ⟨f, pos, hraised⟩ | ⟨hdr, hopened⟩ := decStart_fails_or_opens input s
  · rw [hraised]; nofun
  · rw [hopened]; nofun

/-- Once a DEC_START has been asked for, DEC_NEXT always has a next state. -/
theorem decNext_refused {s : State} {r : Refusal} (hi : Inv s) (h : decNext s = .refused r) :
    RefusedRequest s .decNext r := by
  by_cases hidle : s.dec.dstatus = .idle
  · cases (decNext_idle hidle).symm.trans h
    exact .decNextIdle hidle
  · obtain ⟨t, ht⟩ := decNext_exists_next ⟨hi.ibuf_wf, hidle⟩
    cases ht.symm.trans h

theorem encPixel_closed {s : State} (h : s.enc.estatus = .idle ∨ s.enc.estatus = .done) (p : Pixel) :
    encPixel p s = .refused .encPixelWithoutSession := ((encOperationsOutsideActive s p).1 h).1

theorem encEnd_closed {s : State} (h : s.enc.estatus = .idle ∨ s.enc.estatus = .done) :
    encEnd s = .refused .encEndWithoutSession := ((encOperationsOutsideActive s s.enc.elast).1 h).2

/-- The bound of R223 on the run counter is what keeps an accepted pixel from being refused. -/
theorem encPixel_refused {p : Pixel} {s : State} {r : Refusal} (hi : Inv s) (h : encPixel p s = .refused r) :
    RefusedRequest s (.encPixel p) r := by
  cases hst : s.enc.estatus with
  | idle => cases (encPixel_closed (.inl hst) p).symm.trans h; exact .encPixelIdle p hst
  | done => cases (encPixel_closed (.inr hst) p).symm.trans h; exact .encPixelDone p hst
  | fault f => cases (encPixel_fault hst p).symm.trans h
  | active =>
    have hsession := hi.enc_session (hst.trans_ne nofun)
    by_cases hn : s.enc.eidx = s.enc.etotal
    · cases (encPixel_surplus hst hn).symm.trans h
    · cases (encPixel_eq hst hn hsession.erun_le).symm.trans h

theorem encEnd_refused {s : State} {r : Refusal} (h : encEnd s = .refused r) : RefusedRequest s .encEnd r := by
  cases hst : s.enc.estatus with
  | idle => cases (encEnd_closed (.inl hst)).symm.trans h; exact .encEndIdle hst
  | done => cases (encEnd_closed (.inr hst)).symm.trans h; exact .encEndDone hst
  | fault f => cases (encEnd_fault hst).symm.trans h
  | active =>
    by_cases hn : s.enc.eidx = s.enc.etotal
    · cases (encEnd_complete hst hn).symm.trans h
    · cases (encEnd_missing hst hn).symm.trans h

theorem parseForHost_ne_refused (c : Cursor) (s : State) (r : Refusal) : parseForHost c s ≠ .refused r := by
  unfold parseForHost
  cases parseChunk c with
  | item i pos => nofun
  | failed f pos => nofun
  | outside a => nofun

theorem serForHost_refused {i : Instr} {s : State} {r : Refusal} (h : serForHost i s = .refused r) :
    RefusedRequest s (.serChunk i) r := by
  cases hwf : i.wellFormed with
  | true => cases (serForHost_wf hwf s).symm.trans h
  | false => cases (serForHost_illFormed hwf s).symm.trans h; exact .serChunk i hwf

/-- R262: from a sound state nothing is refused but what the table refuses. -/
theorem runOp_refused {op : HostOp} {s : State} {r : Refusal} (hi : Inv s) (h : runOp op s = .refused r) :
    RefusedRequest s op r := by
  cases op with
  | decStart input => exact absurd h (decStart_ne_refused input s r)
  | decNext => exact decNext_refused hi h
  | encPixel p => exact encPixel_refused hi h
  | encEnd => exact encEnd_refused h
  | parseChunk input pos => exact absurd h (parseForHost_ne_refused _ s r)
  | serChunk i => exact serForHost_refused h
  | encStart | hash | bytesToPix | pixToBytes => cases h

/-- The table reads the two status registers and the request, not what else is asked for. -/
theorem RefusedRequest.of_asked {s : State} {rest : List HostOp} {op : HostOp} {r : Refusal}
    (h : RefusedRequest (s.asked rest) op r) : RefusedRequest s op r := by
  cases h with
  | decNextIdle hst => exact .decNextIdle hst
  | encPixelIdle p hst => exact .encPixelIdle p hst
  | encPixelDone p hst => exact .encPixelDone p hst
  | encEndIdle hst => exact .encEndIdle hst
  | encEndDone hst => exact .encEndDone hst
  | serChunk i hwf => exact .serChunk i hwf

/-- Settles O50: the three outcomes of a step, of which a sound state has no fault. -/
theorem operationsAnswerOrAreRefusedByTheTable : Obligations.OperationsAnswerOrAreRefusedByTheTable := by
  intro s op rest hi hpending
  have hi' := hi.asked rest
  rw [step_of_pending hpending]
  cases hrun : runOp op (s.asked rest) with
  | next t =>
    obtain ⟨v, hv⟩ := runOp_answersOnce hrun
    exact .inl ⟨t, v, rfl, runOp_keeps_pending hrun, hv⟩
  | fault f => exact absurd hrun (runOp_neverFaults op hi'.ibuf_wf f)
  | refused r => exact .inr ⟨r, rfl, (runOp_refused hi' hrun).of_asked⟩

end Sys2Proof.Machine
end

section
/-! Faults and frames (R254, R256, R259, R263): which state an operation that fails leaves, that a unit in FAULT stays there
until a START, and that a unit changes by its own operations only. -/

namespace Sys2Proof.Machine

/-! ### Only its own operations change a unit -/

theorem runOp_keeps_dec {op : HostOp} {s t : State} (hop : op.agent ≠ some .dec) (h : runOp op s = .next t) :
    t.dec = s.dec ∧ t.ibuf = s.ibuf := by
  match hagent : op.agent with
  | some .dec => exact absurd hagent hop
  | some .enc => exact runOp_enc_keeps_dec hagent h
  | none => obtain ⟨v, rfl⟩ := runOp_pure_next hagent h; exact ⟨rfl, rfl⟩

theorem runOp_keeps_enc {op : HostOp} {s t : State} (hop : op.agent ≠ some .enc) (h : runOp op s = .next t) :
    t.enc = s.enc := by
  match hagent : op.agent with
  | some .dec => exact runOp_dec_keeps_enc hagent h
  | some .enc => exact absurd hagent hop
  | none => obtain ⟨v, rfl⟩ := runOp_pure_next hagent h; rfl

theorem step_of_pending_nil {s : State} (h : s.pending = []) : step s = .next s := by simp only [step, h]

/-- Settles O53: the frame of each unit. -/
theorem onlyItsOwnOperationsChangeAUnit : Obligations.OnlyItsOwnOperationsChangeAUnit :=
  ⟨fun _ => step_of_pending_nil, fun _ _ _ h => ⟨fun hop => runOp_keeps_dec hop h, fun hop => runOp_keeps_enc hop h⟩⟩

/-! ### A wrong pixel count -/

/-- Settles O35: both operations raise, and a raise of ENC writes its status and the answer alone. -/
theorem wrongPixelCountRaises : Obligations.WrongPixelCountRaises := fun _ _ ha =>
  ⟨fun hn => encPixel_surplus ha hn, fun hlt => encEnd_missing ha hlt.ne⟩

/-! ### A unit in FAULT -/

/-- R259: every operation of DEC in `FAULT(f)` but DEC_START answers `f` again and does nothing else. -/
theorem runOp_dec_fault {op : HostOp} {s t : State} {f : Failure} (hop : op.agent = some .dec) (hns : op.isStart = false)
    (hst : s.dec.dstatus = .fault f) (h : runOp op s = .next t) : t = answer (.failed f) s := by
  cases op with
  | decNext => exact Host.Outcome.next.inj (h.symm.trans (decNext_fault hst))
  | decStart => cases hns
  | encStart | encPixel | encEnd | hash | parseChunk | serChunk | bytesToPix | pixToBytes => cases hop

/-- R259: every operation of ENC in `FAULT(f)` but ENC_START answers `f` again and does nothing else. -/
theorem runOp_enc_fault {op : HostOp} {s t : State} {f : Failure} (hop : op.agent = some .enc) (hns : op.isStart = false)
    (hst : s.enc.estatus = .fault f) (h : runOp op s = .next t) : t = answer (.failed f) s := by
  cases op with
  | encPixel p => exact Host.Outcome.next.inj (h.symm.trans (encPixel_fault hst p))
  | encEnd => exact Host.Outcome.next.inj (h.symm.trans (encEnd_fault hst))
  | encStart => cases hns
  | decStart | decNext | hash | parseChunk | serChunk | bytesToPix | pixToBytes => cases hop

/-- Settles O52: the unit's own operations only answer, and the others leave the unit by its frame. -/
theorem faultsAreStickyUntilStart : Obligations.FaultsAreStickyUntilStart := by
  intro s t op f hns h
  constructor
  · intro hst
    by_cases hop : op.agent = some .dec
    · rw [runOp_dec_fault hop hns hst h]
      exact ⟨rfl, fun _ => rfl⟩
    · exact ⟨(runOp_keeps_dec hop h).1, fun hown => absurd hown hop⟩
  · intro hst
    by_cases hop : op.agent = some .enc
    · rw [runOp_enc_fault hop hns hst h]
      exact ⟨rfl, fun _ => rfl⟩
    · exact ⟨runOp_keeps_enc hop h, fun hown => absurd hown hop⟩

/-! ### An operation that answers a failure -/

theorem answer_eq_of_appended {vs : List Answer} {v w : Answer} (h : vs ++ [v] = vs ++ [w]) : v = w :=
  List.singleton_inj.mp (List.append_cancel_left h)

/-- A DEC_START that answers a failure has raised it, over the start fills. -/
theorem decStart_failure {input : List Byte} {s t : State} {f : Failure} (h : decStart input s = .next t)
    (hans : t.answers = s.answers ++ [.failed f]) : ∃ pos, failDecStart f pos (startDec input s) = .next t := by
  obtain ⟨g, pos, hraised⟩ | ⟨hdr, hopened⟩ := decStart_fails_or_opens input s
  · cases hraised.symm.trans h
    cases answer_eq_of_appended hans
    exact ⟨pos, rfl⟩
  · cases hopened.symm.trans h
    cases answer_eq_of_appended hans

/-- No item's meaning answers a failure. -/
theorem exec_answers_ne_failed {i : Instr} {s t : State} (h : exec i s = .next t) (f : Failure) :
    t.answers ≠ s.answers ++ [.failed f] := by
  intro hans
  obtain ⟨_, _, p, rfl⟩ | ⟨n, _, _, rfl⟩ | ⟨_, rfl⟩ := exec_next_cases h
  · cases answer_eq_of_appended hans
  · cases answer_eq_of_appended hans
  · cases answer_eq_of_appended hans

/-- A DEC_NEXT that answers a failure has raised it, with at most the cursor moved (R257). -/
theorem decNext_failure {s t : State} {f : Failure} (h : decNext s = .next t)
    (hans : t.answers = s.answers ++ [.failed f]) : ∃ pos, t = raise .dec f (setPos pos s) := by
  cases hst : s.dec.dstatus with
  | idle => cases (decNext_idle hst).symm.trans h
  | done => cases (decNext_done hst).symm.trans h; cases answer_eq_of_appended hans
  | fault g =>
    simp only [decNext, hst] at h
    cases h
    cases answer_eq_of_appended hans
    exact ⟨s.dec.pos, rfl⟩
  | active =>
    obtain ⟨_, rfl⟩ | ⟨_, i, pos, _, hexec⟩ | ⟨_, g, pos, rfl⟩ := decNext_active_cases hst h
    · cases answer_eq_of_appended hans
    · exact absurd hans (exec_answers_ne_failed (s := setPos pos s) hexec f)
    · cases answer_eq_of_appended hans
      exact ⟨pos, rfl⟩

/-- An operation of ENC that answers a failure has raised it, and done nothing else. -/
theorem runOp_enc_failure {op : HostOp} {s t : State} {f : Failure} (hop : op.agent = some .enc)
    (h : runOp op s = .next t) (hans : t.answers = s.answers ++ [.failed f]) : t = raise .enc f s := by
  cases op with
  | encStart hdr => cases h; cases answer_eq_of_appended hans
  | encPixel p =>
    obtain ⟨g, rfl⟩ | ⟨_, u, hwork, rfl⟩ := encPixel_next_cases h
    · cases answer_eq_of_appended hans; rfl
    · rw [rememberPixel_answers, hwork.answers] at hans
      cases answer_eq_of_appended hans
  | encEnd =>
    obtain ⟨g, rfl⟩ | rfl := encEnd_next_cases h
    · cases answer_eq_of_appended hans; rfl
    · cases answer_eq_of_appended hans
  | decStart | decNext | hash | parseChunk | serChunk | bytesToPix | pixToBytes => cases hop

/-- Settles O51: what answers a failure has raised it in its own unit. -/
theorem faultEntry : Obligations.FaultEntry := by
  intro s t op u f hop h hans
  cases u with
  | dec =>
    cases op with
    | decStart input =>
      obtain ⟨pos, hraised⟩ := decStart_failure h hans
      cases hraised
      exact ⟨rfl, rfl, rfl, fun _ => rfl, nofun, nofun⟩
    | decNext =>
      obtain ⟨pos, rfl⟩ := decNext_failure h hans
      exact ⟨rfl, rfl, rfl, fun _ => rfl, nofun, fun _ => ⟨rfl, rfl, fun _ => rfl, nofun⟩⟩
    | encStart | encPixel | encEnd | hash | parseChunk | serChunk | bytesToPix | pixToBytes => cases hop
  | enc =>
    cases runOp_enc_failure hop h hans
    exact ⟨rfl, rfl, rfl, nofun, fun _ => ⟨rfl, rfl⟩, fun _ => ⟨rfl, rfl, nofun, fun _ => rfl⟩⟩

end Sys2Proof.Machine
end

section
/-! Reset (R290): which operations an idle unit accepts, and that the machine is sound after power-on. -/

namespace Sys2Proof.Machine

/-! ### A unit in IDLE -/

/-- DEC_START answers in every status (R170): it opens the session or raises. -/
theorem decStart_exists_next (input : List Byte) (s : State) : ∃ t, decStart input s = .next t := by
  obtain ⟨f, pos, hraised⟩ | ⟨hdr, hopened⟩ := decStart_fails_or_opens input s
  · exact ⟨_, hraised⟩
  · exact ⟨_, hopened⟩

/-- Settles O46: `IDLE` refuses the operations that need a session (R182, R218), and a START answers in every status. -/
theorem idleUnitsAcceptOnlyStart : Obligations.IdleUnitsAcceptOnlyStart :=
  ⟨rfl, rfl,
    fun s hidle => ⟨decNext_idle hidle, fun input => decStart_exists_next input s⟩,
    fun s hidle => ⟨encPixel_closed (.inl hidle), encEnd_closed (.inl hidle), fun h => ⟨_, encStart_eq h s⟩⟩⟩

/-! ### The machine after power-on -/

/-- After power-on no session is open, the input is empty and every slot holds its start fill. -/
theorem reset_decSound : DecSound DecUnit.reset [] where
  ibuf_wf := Memory.nil_wf
  pos_le := Nat.le_refl _
  pos_ge := nofun
  regs := ⟨Nat.zero_le _, .fill _, nofun⟩

/-- An idle encoder with an empty output is sound: the claims about a session do not apply to it. -/
theorem reset_encSound : EncSound EncUnit.reset where
  obuf_wf := Memory.nil_wf
  faults := nofun
  session hne := absurd rfl hne

/-- Settles O47: each unit is sound after power-on. -/
theorem powerOnStateIsSound : Obligations.PowerOnStateIsSound :=
  (inv_iff State.reset).mpr ⟨reset_decSound, reset_encSound⟩

end Sys2Proof.Machine
end
